-- ==== Sys2Proof/Word.lean ====
section
/-! DEFINITION. The word types of the macad-parser core (00_scope.md R6, R9; 10_state.md R25).

Every value of this hardware is unsigned (R9), and bit 0 is the least significant bit. -/

namespace Sys2Proof

/-- A byte, 8 bits (R9): one character of a text, one lane of a wide register, one octet. -/
abbrev Byte := BitVec 8

/-- The command word `req_cmd` (30_encoding.md R42). -/
abbrev Command := BitVec 32

/-- The request payload `req_data`: 32 byte lanes (30_encoding.md R48). -/
abbrev Payload := BitVec 256

/-- The 64-bit container of a MacValue (20_memory.md R31). -/
abbrev Container := BitVec 64

/-- A MacValue: the 48-bit unsigned integer of an address (00_scope.md R12). -/
abbrev MacValue := BitVec 48

/-- The response field `rsp_data`: 17 byte lanes (30_encoding.md R49). -/
abbrev ResponseData := BitVec 136

/-- A register or buffer of `n` byte lanes, inside one operation (R9, 10_state.md R21).
Never part of the machine's state. -/
abbrev Lanes (n : Nat) := Fin n → Byte

/-- `TXT`, the text buffer of a PARSE request: exactly 32 bytes, so that no access outside it can be
written down (20_memory.md R28, R38). -/
abbrev TextIn := Lanes 32

/-- `OUT`, the text buffer of a FORMAT response: exactly 17 bytes (20_memory.md R29). -/
abbrev TextOut := Lanes 17

end Sys2Proof
end

