-- ==== Sys2Proof/Config.lean ====
section
/-! DEFINITION. What an implementation fixes and the spec leaves open (00_scope.md R7,
93_implementation_defined.md), and the free values of the model. Each is opaque: no proof can learn
a value of it, so a theorem of the model holds for every choice. -/

namespace Sys2Proof.Config

/-- `NONHEX_OCTET` (00_scope.md R7, 40_parse.md R71): the octet PARSE makes, with `VH` = 0, of two
digit bytes that are not both hex characters. A function of the two bytes and nothing else.
DESIGN CHOICE, safe: assumption log 1. -/
opaque nonhexOctet : Byte → Byte → Byte

/-- `LAT_PARSE` (R7, 70_reset_and_hazards.md R126): clock edges from the Accept of a PARSE, or of an
illegal command, to the first cycle its response is presented. No operation of the machine reads it
(R7): it stands in the timing claims only. Assumption log 2. -/
opaque latParse : Nat

/-- `LAT_FORMAT` (R7, R126): the same for a FORMAT, read where `latParse` is. Assumption log 2. -/
opaque latFormat : Nat

/-- How many requests beyond one the unit can hold: `DEPTH - 1`. Assumption log 3. -/
opaque depthBeyondOne : Nat

/-- `DEPTH` (R7): how many accepted requests may await their response, a natural number `≥ 1`. -/
def depth : Nat := depthBeyondOne + 1

/-- The command word the unit captures when the requester broke its duty to hold the request stable
(70_reset_and_hazards.md R124: "the request the unit captures is undefined"). A free value, fresh for
each such capture. Assumption log 4. -/
opaque unstableCmd : Nat → Command

/-- The payload captured in the same case as `unstableCmd`. Assumption log 4. -/
opaque unstableData : Nat → Payload

/-- The registers of the stage rules some of whose lanes the spec leaves don't-care. -/
inductive DontCareReg where
  /-- `G`, the gathered delimiters: lanes 5 to 15 (40_parse.md R74). -/
  | gathered
  /-- `O`, the compacted octets: lanes 6 and up (40_parse.md R81). -/
  | octets
  /-- `S`, the spread digits: lanes 2, 5, 8, 11, 14 (41_format.md R91). -/
  | spread
  /-- `OUT` before its two stores (41_format.md R93, R94). -/
  | out
deriving DecidableEq, Repr

/-- The value of a don't-care lane of the stage rules (93_implementation_defined.md U15: any value,
unobservable). Assumption log 5. -/
opaque dontCareLane : DontCareReg → Nat → Byte

/-- `NIB[i]` of a lane whose `ISHEX` is 0 (40_parse.md R79): unspecified, anything that depends on the
lane's own byte alone. No response depends on it. DESIGN CHOICE, safe: assumption log 5. -/
opaque nonhexNibble : Byte → Byte

end Sys2Proof.Config
end

