-- ==== Sys2Proof/Syntax.lean ====
section
/-! DEFINITION. The commands of `MACAD-CMD v1` (30_encoding.md R42 to R47): one constructor for each
row of spec/opcode_table.json, holding the fields that row's operation reads (R57 `Decode`). -/

namespace Sys2Proof

/-- The two operations of the core (00_scope.md R1). The fields an operation ignores are not
operands of it (30_encoding.md R46). -/
inductive Instr where
  /-- PARSE, text to integer (40_parse.md R60). `len` is the available length `LEN` (R45), a count of
  bytes 0 to 255; `vd` and `vh` the two validation switches; `delim` the expected delimiter. -/
  | parse (len : Nat) (vd vh : Bool) (delim : Byte)
  /-- FORMAT, integer to text (41_format.md R84). `uc` selects upper case; `delim` is the delimiter. -/
  | format (uc : Bool) (delim : Byte)
deriving DecidableEq, Repr

end Sys2Proof
end

