-- ==== Sys2Proof/WellFormed.lean ====
section
/-! DEFINITION. Which instructions have an encoding. -/

namespace Sys2Proof

/-- `LEN` is an 8-bit field (30_encoding.md R43, R45): an unsigned number 0 to 255. Every value of the
other fields is legal (R46: "`DELIM` may be any of the 256 byte values"). Assumption log 15. -/
def Instr.wellFormed : Instr → Bool
  | .parse len _ _ _ => decide (len ≤ 255)
  | .format _ _ => true

end Sys2Proof
end

