-- ==== Sys2Proof/Decode.lean ====
section
/-! DEFINITION. Reading a command word (30_encoding.md R42 to R47, R53, R54, R57), and writing one
(R55). Decoding is total on all 2^32 words and rejects by name. -/

namespace Sys2Proof

/-- Why a command word is illegal (30_encoding.md R53). -/
inductive IllegalWord where
  /-- Some bit of `RSVD` is set (R47): illegal whatever `OPC` is. -/
  | reservedBits (rsvd : BitVec 5)
  /-- `OPC` selects no operation (R44). -/
  | unknownOpcode (opc : BitVec 8)
deriving DecidableEq, Repr

/-- What a command word spells (R57 `Decode`). -/
inductive Decoded where
  /-- A legal command. -/
  | legal (i : Instr)
  /-- No operation, with the reason. -/
  | illegal (why : IllegalWord)
deriving DecidableEq, Repr

/-- `OPC`, bits 31:24 (R43). -/
def fieldOpc (cmd : Command) : BitVec 8 := cmd.extractLsb' 24 8

/-- `LEN`, bits 23:16, an unsigned number (R43, R45). -/
def fieldLen (cmd : Command) : Nat := (cmd.extractLsb' 16 8).toNat

/-- `RSVD`, bits 15:11 (R43). -/
def fieldRsvd (cmd : Command) : BitVec 5 := cmd.extractLsb' 11 5

/-- `UC`, bit 10 (R43); 1 is true (R46). -/
def fieldUc (cmd : Command) : Bool := cmd.getLsbD 10

/-- `VH`, bit 9 (R43). -/
def fieldVh (cmd : Command) : Bool := cmd.getLsbD 9

/-- `VD`, bit 8 (R43). -/
def fieldVd (cmd : Command) : Bool := cmd.getLsbD 8

/-- `DELIM`, bits 7:0 (R43). -/
def fieldDelim (cmd : Command) : Byte := cmd.extractLsb' 0 8

/-- `OPC` of PARSE (R44). -/
def opcParse : BitVec 8 := 0x01#8

/-- `OPC` of FORMAT (R44). -/
def opcFormat : BitVec 8 := 0x02#8

/-- `Decode` of 30_encoding.md R57: the reserved bits first, then `OPC`. -/
def decode (cmd : Command) : Decoded :=
  if fieldRsvd cmd ≠ 0#5 then .illegal (.reservedBits (fieldRsvd cmd))
  else if fieldOpc cmd = opcParse then
    .legal (.parse (fieldLen cmd) (fieldVd cmd) (fieldVh cmd) (fieldDelim cmd))
  else if fieldOpc cmd = opcFormat then .legal (.format (fieldUc cmd) (fieldDelim cmd))
  else .illegal (.unknownOpcode (fieldOpc cmd))

/-- The command word with the given fields, in the order of the layout of R42. -/
def packCommand (opc len : BitVec 8) (rsvd : BitVec 5) (uc vh vd : Bool) (delim : Byte) : Command :=
  opc ++ len ++ rsvd ++ BitVec.ofBool uc ++ BitVec.ofBool vh ++ BitVec.ofBool vd ++ delim

/-- The word of an instruction. Fields the operation ignores, and `RSVD`, are written 0, as the
assembler does (R55). -/
def encode : Instr → Command
  | .parse len vd vh delim => packCommand opcParse (BitVec.ofNat 8 len) 0#5 false vh vd delim
  | .format uc delim => packCommand opcFormat 0#8 0#5 uc false false delim

/-- A row of the opcode map (R54): a word belongs to it exactly when `word & mask = pattern`. -/
structure OpcodeRow where
  mnemonic : String
  mask : Command
  pattern : Command
deriving DecidableEq, Repr

/-- Row PARSE of the opcode map (R54). -/
def rowParse : OpcodeRow := ⟨"PARSE", 0xFF00F800#32, 0x01000000#32⟩

/-- Row FORMAT of the opcode map (R54). -/
def rowFormat : OpcodeRow := ⟨"FORMAT", 0xFF00F800#32, 0x02000000#32⟩

/-- The word belongs to the row: `word & mask == match` (R54). -/
def rowMatches (row : OpcodeRow) (cmd : Command) : Bool := cmd &&& row.mask == row.pattern

/-- The instruction the decoder reads from a command whose low `nbits` bits are `w` and whose other
bits are 0. A command is one word of 32 bits, given to the unit on `req_cmd` (R42). -/
def decodeTableWord (nbits w : Nat) : Option Instr :=
  match decode (BitVec.ofNat 32 (w % 2 ^ nbits)) with
  | .legal i => some i
  | .illegal _ => none

end Sys2Proof
end

