-- ==== Sys2Proof/Machine/State.lean ====
section
/-! DEFINITION. The state of the macad-parser core, its requests and responses, and the machine right
after reset (10_state.md R13 to R27; 70_reset_and_hazards.md R120 to R122). -/

namespace Sys2Proof.Machine

/-- A request: the command word and the payload, captured whole at Accept (10_state.md R15). -/
structure Request where
  /-- `req_cmd`, 32 bits (30_encoding.md R42). -/
  cmd : Command
  /-- `req_data`, 256 bits (30_encoding.md R48). -/
  data : Payload
deriving DecidableEq, Repr

/-- `rsp_status` (30_encoding.md R50). The code 3 is never produced, so it is no constructor
(93_implementation_defined.md U6). -/
inductive Status where
  /-- Code 0: PARSE's result is present; FORMAT always. -/
  | ok
  /-- Code 1: PARSE's result is absent. -/
  | absent
  /-- Code 2: the command word spells no operation. -/
  | illegal
deriving DecidableEq, Repr

/-- A response: three fields delivered together (30_encoding.md R49). No field tells the cause of a
failure (60_exceptions.md R105). -/
structure Response where
  /-- `rsp_status`. -/
  status : Status
  /-- `rsp_count`, 5 bits (R51). -/
  count : BitVec 5
  /-- `rsp_data`, 136 bits, 17 byte lanes (R52). -/
  data : ResponseData
deriving DecidableEq, Repr

/-- The failure causes (60_exceptions.md R104). A cause is a ghost value: it names a failure for the
model and its proofs, and it is on no port and in no field of the state (R105, R106). -/
inductive FailureCause where
  /-- Cause 1: `LEN < 17`. -/
  | tooShort
  /-- Cause 2: `VD` = 1 and a delimiter byte differs from `DELIM`. -/
  | delimiterMismatch
  /-- Cause 3: `VH` = 1 and a digit byte is outside the hex set. -/
  | invalidHexDigit
  /-- Cause 4: the command word spells no operation. -/
  | illegalCommand
deriving DecidableEq, Repr

/-- What the requester drives on the input ports at one rising edge of `clk` (10_state.md R25). The
type has no X: electrically undefined inputs cannot be written down
(93_implementation_defined.md U8). -/
structure InPins where
  /-- `rst`, synchronous reset, active high. -/
  rst : Bool
  /-- `req_valid`. -/
  reqValid : Bool
  /-- `req_cmd`. -/
  reqCmd : Command
  /-- `req_data`. -/
  reqData : Payload
  /-- `rsp_ready`. -/
  rspReady : Bool
deriving DecidableEq, Repr

/-- What one rising edge of `clk` brings: the input ports, and how long the unit will take. -/
structure EdgeInput extends InPins where
  /-- Cycles that must still pass, after an Accept at this edge, before the response to the accepted
  request may be presented; without an Accept it means nothing. The latency is hidden state (10_state.md
  R24) that no rule of the model fixes (00_scope.md R7, 70_reset_and_hazards.md R126), so it comes to the
  step as data: any number, hence finite (the fairness of R16). DESIGN CHOICE: assumption log 2. -/
  unitWait : Nat
deriving DecidableEq, Repr

/-- What the unit drives on the output ports in one cycle (10_state.md R25). Computed from the state
by `outPins`, not stored: the queue is the only state of the unit (R15). -/
structure OutPins where
  /-- `req_ready`. -/
  reqReady : Bool
  /-- `rsp_valid`. -/
  rspValid : Bool
  /-- `rsp_status`, as its 2-bit code. -/
  rspStatus : BitVec 2
  /-- `rsp_count`. -/
  rspCount : BitVec 5
  /-- `rsp_data`. -/
  rspData : ResponseData
deriving DecidableEq, Repr

/-- One accepted request in the queue. -/
structure Entry where
  /-- The request (10_state.md R15). -/
  req : Request
  /-- Cycles still to pass before its response may be presented: the hidden latency of R24, as drawn at its
  Accept (`EdgeInput.unitWait`). `Exec` never reads it. -/
  wait : Nat
deriving DecidableEq, Repr

/-- Whether the requester has kept its duty to hold a request stable from `req_valid` until Accept
(10_state.md R25, 70_reset_and_hazards.md R124). The model's own field: the unit checks no duty. -/
inductive Presented where
  /-- No request has been presented since the last Accept or reset. -/
  | idle
  /-- `r` was presented and not accepted, and has stood unchanged on the port since. -/
  | steady (r : Request)
  /-- A presented request was changed before its Accept: what the next Accept captures is undefined. -/
  | changed
deriving DecidableEq, Repr

/-- The machine. `queue` is the unit's state; the other fields are the two ends of its ports as data
(the inputs still to come, the responses already taken) and two bookkeeping fields of the model. -/
structure State where
  /-- `Q`, the requests accepted and not yet answered, oldest first (10_state.md R15). -/
  queue : List Entry
  /-- Whether the request on the port has been held stable (R124). Assumption log 4. -/
  presented : Presented
  /-- How many undefined captures have been drawn from `Config.unstableCmd` and
  `Config.unstableData`. Assumption log 4. -/
  unstableCount : Nat
  /-- What the coming clock edges bring, next edge first. Assumption log 6. -/
  stimulus : List EdgeInput
  /-- The responses the requester has taken, oldest first (R16 `emit`; R127). Assumption log 7. -/
  delivered : List Response
deriving DecidableEq, Repr

/-- Why the machine stops with a fault. It never does: a failure is reported in a response, "never
thrown as fatal aborts" (60_exceptions.md R107), and there is no trap (R112). So no constructor. -/
inductive Fault where
deriving DecidableEq, Repr

/-- Why an instruction has no meaning. -/
inductive Refusal where
  /-- Raised by `exec` for an instruction that is not modelled yet; no arm raises it now. Safe: the
  machine stops. -/
  | notModelled (mnemonic : String)
deriving DecidableEq, Repr

/-- The machine right after reset, nothing yet placed on its ports (10_state.md R26): the queue is
empty. The model's own fields (DESIGN CHOICE: assumption log 14): no request is on the port, no
undefined capture has been drawn, no input is waiting and no response has been taken. -/
def State.reset : State :=
  { queue := [], presented := .idle, unstableCount := 0, stimulus := [], delivered := [] }

end Sys2Proof.Machine
end

