-- ==== Sys2Proof/Machine/Operands.lean ====
section
/-! DEFINITION. The operands of PARSE and FORMAT: byte lanes, the two text buffers, the layout of the
text, the hex character set and tables (00_scope.md R9 to R11; 20_memory.md R28 to R36;
30_encoding.md R48, R52; 41_format.md R85). -/

namespace Sys2Proof.Machine

/-! ## Lanes (R9) -/

/-- Lane `i` of a vector of byte lanes: bits `8i+7:8i`, lane 0 least significant (R9). -/
def lane {w : Nat} (v : BitVec w) (i : Nat) : Byte := v.extractLsb' (8 * i) 8

/-- The number whose base-256 digits, least significant first, are the lanes of `f`. -/
def laneSum : (n : Nat) → Lanes n → Nat
  | 0, _ => 0
  | n + 1, f => (f 0).toNat + 256 * laneSum n (fun i => f i.succ)

/-- The vector whose lane `i` is `f i` (R9): `{f (n-1), ..., f 1, f 0}`. -/
def ofLanes (n : Nat) (f : Lanes n) : BitVec (8 * n) := BitVec.ofNat (8 * n) (laneSum n f)

/-- `all(i in 0..n-1 : p(i))` (00_scope.md R10). -/
def allLanes : (n : Nat) → (Fin n → Bool) → Bool
  | 0, _ => true
  | n + 1, p => p 0 && allLanes n (fun i => p i.succ)

/-- `any(i in 0..n-1 : p(i))` (R10). -/
def anyLane : (n : Nat) → (Fin n → Bool) → Bool
  | 0, _ => false
  | n + 1, p => p 0 || anyLane n (fun i => p i.succ)

/-- `bswap64`: byte `i` of the result is byte `7-i` of the operand (R10;
93_implementation_defined.md U14). -/
def bswap64 (v : Container) : Container := ofLanes 8 (fun i => lane v (7 - i))

/-! ## The two buffers (20_memory.md R28 to R31, R35, R36) -/

/-- `TXT[i]` is lane `i` of the request payload (R28). -/
def txtOf (data : Payload) : TextIn := fun i => lane data i

/-- `MemRead(addr, n)`: the `n` bytes from `addr` of `TXT`; defined only inside it (R10). -/
def memRead (txt : TextIn) (addr n : Nat) (h : addr + n ≤ 32) : Lanes n :=
  fun i => txt ⟨addr + i, by omega⟩

/-- `MemWrite(addr, n, v)`: writes the `n` bytes of `v` to `OUT` from `addr`, lowest lane first;
defined only inside it (R10). -/
def memWrite (out : TextOut) (addr n : Nat) (_h : addr + n ≤ 17) (v : Lanes n) : TextOut :=
  fun i => if hi : addr ≤ i.val ∧ i.val < addr + n then v ⟨i.val - addr, by omega⟩ else out i

/-- FORMAT's operand: the container in the low 8 lanes of the payload (20_memory.md R31,
30_encoding.md R48). -/
def containerOf (data : Payload) : Container := data.extractLsb' 0 64

/-- The response data of a text: lane `i` is `OUT[i]` (30_encoding.md R52). -/
def dataOfText (out : TextOut) : ResponseData := ofLanes 17 out

/-- The response data of a value: its 64-bit container in the low lanes, zero above (R52). -/
def dataOfValue (v : MacValue) : ResponseData := v.setWidth 136

/-! ## The layout of the text (20_memory.md R30) -/

/-- The offset of digit number `i` = 0..11: `i + floor(i/2)` (R30, 40_parse.md R64). -/
def digitPos (i : Fin 12) : Fin 17 := ⟨i + i / 2, by omega⟩

/-- The offset of delimiter `j` = 0..4: `3j+2` (R30). -/
def delimPos (j : Fin 5) : Fin 17 := ⟨3 * j + 2, by omega⟩

/-- The 12 digit bytes `h[i] = TXT[p(i)]` of a text buffer (40_parse.md R64). -/
def digitsOf (txt : TextIn) : Lanes 12 := fun i => txt ((digitPos i).castLE (by omega))

/-- The delimiter bytes of a text buffer (40_parse.md R63). -/
def delimsOf (txt : TextIn) : Lanes 5 := fun j => txt ((delimPos j).castLE (by omega))

/-- The high digit of octet `k` is digit `2k` (R30, R64). -/
def highDigit {α : Type} (h : Fin 12 → α) (k : Fin 6) : α := h ⟨2 * k, by omega⟩

/-- The low digit of octet `k` is digit `2k+1` (R30, R64). -/
def lowDigit {α : Type} (h : Fin 12 → α) (k : Fin 6) : α := h ⟨2 * k + 1, by omega⟩

/-- Octet `k` of a 48-bit value, octet 0 most significant: bits `47-8k:40-8k` (20_memory.md R32). -/
def octetOf (m : MacValue) (k : Fin 6) : Byte := m.extractLsb' (40 - 8 * k) 8

/-- The 48-bit value of six octets, octet 0 most significant (R32, 40_parse.md R60 step 6). -/
def valueOfOctets (oct : Lanes 6) : MacValue := oct 0 ++ oct 1 ++ oct 2 ++ oct 3 ++ oct 4 ++ oct 5

/-! ## Characters (00_scope.md R10, R11) -/

/-- `in_range(b, lo, hi)`: unsigned comparison, both ends included (R10). -/
def inRange (b lo hi : Byte) : Bool := decide (lo.toNat ≤ b.toNat) && decide (b.toNat ≤ hi.toNat)

/-- The digits `'0'..'9'` (R11, 40_parse.md R65). -/
def isDigit (b : Byte) : Bool := inRange b 0x30#8 0x39#8

/-- `ishex(b)`: `b` is in the hex set, the 22 characters `0-9`, `A-F`, `a-f` (R11, 40_parse.md R65). -/
def isHex (b : Byte) : Bool :=
  inRange b 0x30#8 0x39#8 || inRange b 0x41#8 0x46#8 || inRange b 0x61#8 0x66#8

/-- `hv(b)`, the hex value 0 to 15 of a byte of the hex set (R11). Read only where `isHex b`. -/
def hexValue (b : Byte) : Nat :=
  if inRange b 0x30#8 0x39#8 then b.toNat - 0x30
  else if inRange b 0x41#8 0x46#8 then b.toNat - 0x37
  else b.toNat - 0x57

/-- The upper-case table of 41_format.md R85 (`UC` = 1). -/
def hexTableUpper : Vector Byte 16 :=
  #v[0x30, 0x31, 0x32, 0x33, 0x34, 0x35, 0x36, 0x37, 0x38, 0x39, 0x41, 0x42, 0x43, 0x44, 0x45, 0x46]

/-- The lower-case table of 41_format.md R85 (`UC` = 0). -/
def hexTableLower : Vector Byte 16 :=
  #v[0x30, 0x31, 0x32, 0x33, 0x34, 0x35, 0x36, 0x37, 0x38, 0x39, 0x61, 0x62, 0x63, 0x64, 0x65, 0x66]

/-- `HEXCHAR(UC, n)`: entry `n` of the table `UC` selects (41_format.md R85). -/
def hexChar (uc : Bool) (n : BitVec 4) : Byte :=
  (if uc then hexTableUpper else hexTableLower)[n.toNat]

/-- The high nibble `oct[7:4]` (R9, 41_format.md R84). -/
def highNibble (b : Byte) : BitVec 4 := b.extractLsb' 4 4

/-- The low nibble `oct[3:0]` (R9, 41_format.md R84). -/
def lowNibble (b : Byte) : BitVec 4 := b.extractLsb' 0 4

end Sys2Proof.Machine
end

