-- ==== Sys2Proof/Machine/Flags.lean ====
section
/-! DEFINITION. The one flag of the unit, PARSE's present flag (10_state.md R19). It is not state: it
is carried by the status of one response, and no operation reads it. There is no carry, overflow,
zero or sign flag. -/

namespace Sys2Proof.Machine

/-- The code of a status on `rsp_status` (30_encoding.md R50). -/
def statusCode : Status → BitVec 2
  | .ok => 0
  | .absent => 1
  | .illegal => 2

/-- The present flag of a PARSE response: status OK is present, ABSENT is absent (R19). -/
def presentFlag (r : Response) : Bool := r.status == .ok

/-- The result of the parser kernel, `optional<48-bit integer>` (40_parse.md R60), with the cause of an
absent result as a ghost value beside it (60_exceptions.md R106). -/
inductive ParseResult where
  /-- A value came out. -/
  | present (v : MacValue)
  /-- No value came out; the cause is visible to the model only. -/
  | absent (cause : FailureCause)
deriving DecidableEq, Repr

/-- The number that names a cause (60_exceptions.md R104). It is on no wire
(91_not_in_source.md N16). -/
def causeNumber : FailureCause → Nat
  | .tooShort => 1
  | .delimiterMismatch => 2
  | .invalidHexDigit => 3
  | .illegalCommand => 4

/-- The status a cause is answered with (60_exceptions.md R104, column "response status"). -/
def statusOfCause : FailureCause → Status
  | .tooShort => .absent
  | .delimiterMismatch => .absent
  | .invalidHexDigit => .absent
  | .illegalCommand => .illegal

end Sys2Proof.Machine
end

