-- ==== Sys2Proof/Machine/Ops.lean ====
section
/-! DEFINITION. The shared operations: ending an operation with a response, the two steps of the unit
(Accept and Deliver, 10_state.md R16), reset, the handshake and the passing of clock edges.

There is no trap entry and no trap return on this hardware (60_exceptions.md R112, R113); what takes
their place is the one operation `raiseResponse` (R107). There is no memory: the two text buffers are
lanes of a request and of a response (20_memory.md R38). -/

namespace Sys2Proof.Machine

/-! ## Ending an operation -/

/-- `raise <Cause>` (00_scope.md R10, 60_exceptions.md R107): the operation ends with the cause's status,
count 0 and all-zero data (30_encoding.md R51, R52; assumption log 13), and does nothing else. -/
def raiseResponse (cause : FailureCause) : Response :=
  { status := statusOfCause cause, count := 0, data := 0 }

/-- The response to PARSE (30_encoding.md R57): a present value with status OK, or the failure. -/
def answerParse : ParseResult → Response
  | .present v => { status := .ok, count := 0, data := dataOfValue v }
  | .absent cause => raiseResponse cause

/-- The response to FORMAT (R57): status OK, count 17 and the 17 bytes. -/
def answerFormat (out : TextOut) : Response :=
  { status := .ok, count := 17, data := dataOfText out }

/-! ## The queue and its handshake -/

/-- `req_ready`: Accept is enabled when `length(Q) < DEPTH` (10_state.md R16, R25). -/
def reqReady (s : State) : Bool := decide (s.queue.length < Config.depth)

/-- `rsp_valid`: the oldest request's wait is over (R16 "Deliver: enabled when `Q = r :: Q'`"; the wait is
the hidden latency of R24; in order, so a younger response waits for it). -/
def rspValid (s : State) : Bool :=
  match s.queue with
  | [] => false
  | e :: _ => e.wait == 0

/-- Deliver (R16): the oldest request leaves the queue and its response, `answer` of its payload, is
emitted. With an empty queue Deliver is not enabled and nothing happens (DESIGN CHOICE: assumption
log 11). -/
def deliver (answer : Payload → Response) (s : State) : State :=
  match s.queue with
  | [] => s
  | e :: rest => { s with queue := rest, delivered := s.delivered ++ [answer e.req.data] }

/-- Accept (R16): the request joins the young end of the queue, with its wait before it (R24). -/
def accept (r : Request) (wait : Nat) (s : State) : State :=
  { s with queue := s.queue ++ [{ req := r, wait := wait }] }

/-- An edge with `rst` = 1 (R26; 70_reset_and_hazards.md R120, R122): the queue becomes empty, and the
requests in it get no response. Responses already taken are the requester's and stay (assumption
log 14). -/
def clockReset (s : State) : State := { s with queue := [], presented := .idle }

/-- One clock edge passes for every request in the queue (assumption log 2). -/
def tick (s : State) : State :=
  { s with queue := s.queue.map fun e => { e with wait := e.wait - 1 } }

/-! ## The requester's side -/

/-- The input ports when the requester drives nothing: no reset, no request, not ready.
DESIGN CHOICE: assumption log 6. -/
def idleInput : EdgeInput :=
  { rst := false, reqValid := false, reqCmd := 0, reqData := 0, rspReady := false, unitWait := 0 }

/-- What the coming edge brings: the values on the input ports, and the wait of a request it accepts. -/
def nextInput (s : State) : EdgeInput := s.stimulus.headD idleInput

/-- The edge has passed: the next stimulus stands on the ports. -/
def takeInput (s : State) : State := { s with stimulus := s.stimulus.tail }

/-- The request on the port. -/
def pinsRequest (pins : EdgeInput) : Request := { cmd := pins.reqCmd, data := pins.reqData }

/-- The request on the port is the one first presented, held unchanged since (R124). -/
def heldStable (p : Presented) (r : Request) : Bool :=
  match p with
  | .idle => true
  | .steady r₀ => r₀ == r
  | .changed => false

/-- An edge without Accept: what becomes of a request that stands, or begins to stand, on the port
(10_state.md R25, R124). DESIGN CHOICE on a withdrawn request: assumption log 4. -/
def observe (p : Presented) (pins : EdgeInput) : Presented :=
  match p with
  | .idle => if pins.reqValid then .steady (pinsRequest pins) else .idle
  | .steady r₀ => if r₀ = pinsRequest pins then .steady r₀ else .changed
  | .changed => .changed

/-- The `n`-th undefined capture (R124): a free value. -/
def unstableRequest (n : Nat) : Request := { cmd := Config.unstableCmd n, data := Config.unstableData n }

/-- What Accept captures: the request on the port, or an undefined one when it was not held stable
(R124: "the request the unit captures is undefined"). -/
def captured (s : State) (pins : EdgeInput) : Request :=
  if heldStable s.presented (pinsRequest pins) then pinsRequest pins
  else unstableRequest s.unstableCount

/-- The request port at an edge with `rst` = 0: Accept when `req_valid` and `req_ready` are both 1
(R25), else nothing enters the queue. `ready` is `req_ready` as it stood before the edge. -/
def requestPhase (pins : EdgeInput) (ready : Bool) (s : State) : State :=
  if pins.reqValid && ready then
    { accept (captured s pins) pins.unitWait s with
      presented := .idle
      unstableCount :=
        if heldStable s.presented (pinsRequest pins) then s.unstableCount else s.unstableCount + 1 }
  else { s with presented := observe s.presented pins }

end Sys2Proof.Machine
end

