-- ==== Sys2Proof/Machine/Format.lean ====
section
/-! DEFINITION. FORMAT, integer to text: the functional rules (41_format.md R84 to R86). -/

namespace Sys2Proof.Machine

/-- The low 48 bits of the container, `m = V[47:0]` (41_format.md R84 step 1). -/
def maskedValue (v : Container) : MacValue := v.extractLsb' 0 48

/-- FORMAT (R84). Offset `3k` holds the high digit of octet `k`, `3k+1` its low digit, and `3k+2` the
delimiter. -/
def formatText (v : Container) (delim : Byte) (uc : Bool) : TextOut := fun i =>
  let oct := octetOf (maskedValue v) ⟨i / 3, by omega⟩
  if i.val % 3 = 0 then hexChar uc (highNibble oct)
  else if i.val % 3 = 1 then hexChar uc (lowNibble oct)
  else delim

/-- The response to a FORMAT of the payload `data` (30_encoding.md R57). -/
def formatResponse (uc : Bool) (delim : Byte) (data : Payload) : Response :=
  answerFormat (formatText (containerOf data) delim uc)

/-- FORMAT as a step of the machine: the oldest request is answered as R84 says (10_state.md R16). It
never fails (R86). -/
def execFormat (uc : Bool) (delim : Byte) (s : State) : Host.Outcome State Fault Refusal :=
  .next (deliver (formatResponse uc delim) s)

end Sys2Proof.Machine
end

