-- ==== Sys2Proof/Machine/Parse.lean ====
section
/-! DEFINITION. PARSE, text to integer: the functional rules (40_parse.md R60 to R71), which are the
specification of correctness (00_scope.md R8), and the failure cause as a ghost value
(60_exceptions.md R106). -/

namespace Sys2Proof.Machine

/-- `LEN < 17` (40_parse.md R62). The only test PARSE makes of the length. -/
def lengthFails (len : Nat) : Bool := decide (len < 17)

/-- `any(j in 0..4 : TXT[3j+2] != DELIM)` (R63): equality of all 8 bits, by position. -/
def delimitersFail (txt : TextIn) (delim : Byte) : Bool :=
  anyLane 5 fun j => delimsOf txt j != delim

/-- `any(i in 0..11 : not ishex(h[i]))` (R66). -/
def hexDigitsFail (txt : TextIn) : Bool := anyLane 12 fun i => !isHex (digitsOf txt i)

/-- An octet of two digit bytes: `16*hv(hi) + hv(lo)` when both are hex characters (R68), else
`NONHEX_OCTET` of the two (R71). -/
def octetOfDigits (nonhex : Byte → Byte → Byte) (hi lo : Byte) : Byte :=
  if isHex hi && isHex lo then BitVec.ofNat 8 (16 * hexValue hi + hexValue lo) else nonhex hi lo

/-- The six octets of a text (R60 step 5). -/
def octetsOf (nonhex : Byte → Byte → Byte) (txt : TextIn) : Lanes 6 :=
  fun k => octetOfDigits nonhex (highDigit (digitsOf txt) k) (lowDigit (digitsOf txt) k)

/-- PARSE (R60), for a given `NONHEX_OCTET`: the three tests in the order of R61, then the value. -/
def parseText (nonhex : Byte → Byte → Byte) (txt : TextIn) (len : Nat) (vd vh : Bool) (delim : Byte) :
    ParseResult :=
  if lengthFails len then .absent .tooShort
  else if vd && delimitersFail txt delim then .absent .delimiterMismatch
  else if vh && hexDigitsFail txt then .absent .invalidHexDigit
  else .present (valueOfOctets (octetsOf nonhex txt))

/-- The failure cause of a PARSE as a ghost value (60_exceptions.md R106), written from that rule. -/
def parseCause (txt : TextIn) (len : Nat) (vd vh : Bool) (delim : Byte) : Option FailureCause :=
  if len < 17 then some .tooShort
  else if vd = true ∧ ∃ j : Fin 5, delimsOf txt j ≠ delim then some .delimiterMismatch
  else if vh = true ∧ ∃ i : Fin 12, isHex (digitsOf txt i) = false then some .invalidHexDigit
  else none

/-- The response to a PARSE of the payload `data` (30_encoding.md R57). -/
def parseResponse (len : Nat) (vd vh : Bool) (delim : Byte) (data : Payload) : Response :=
  answerParse (parseText Config.nonhexOctet (txtOf data) len vd vh delim)

/-- PARSE as a step of the machine: the oldest request is answered as R60 says (10_state.md R16). -/
def execParse (len : Nat) (vd vh : Bool) (delim : Byte) (s : State) :
    Host.Outcome State Fault Refusal :=
  .next (deliver (parseResponse len vd vh delim) s)

/-- `nibf(b)` of 40_parse.md R71, informative. -/
def nibbleRef (b : Byte) : Byte := if isDigit b then b - 0x30 else (b &&& 0xDF) - 0x37

/-- `NONHEX_OCTET_ref` (R71): one instance of the open parameter, "for tests that need a concrete
function and for nothing else". -/
def nonhexOctetRef (hi lo : Byte) : Byte := 16 * nibbleRef hi + nibbleRef lo

end Sys2Proof.Machine
end

