-- ==== Sys2Proof/Machine/Dispatch.lean ====
section
/-! DEFINITION. One arm per instruction, each a call of its meaning. -/

namespace Sys2Proof.Machine

def exec (i : Instr) (s : State) : Host.Outcome State Fault Refusal :=
  match i with
  | .parse len vd vh delim => Sys2Proof.Machine.execParse len vd vh delim s
  | .format uc delim => Sys2Proof.Machine.execFormat uc delim s

end Sys2Proof.Machine
end

