-- ==== Sys2Proof/Machine/Edge.lean ====
section
/-! DEFINITION. The phases of one rising clock edge (10_state.md R16, R25; 70_reset_and_hazards.md R120).
The step function of Machine/Step.lean only puts them together. -/

namespace Sys2Proof.Machine

/-- Goes on from a next state; a fault or a refusal stays. -/
def afterNext (o : Host.Outcome State Fault Refusal) (f : State → State) :
    Host.Outcome State Fault Refusal :=
  match o with
  | .next s => .next (f s)
  | .fault r => .fault r
  | .refused r => .refused r

/-- The unit answers its oldest request: it runs the instruction the command word decodes to, or, for an
illegal word, answers `(ILLEGAL, 0, 0)` without reading the payload (30_encoding.md R53). With no
request there is nothing to answer. -/
def answerHead (s : State) : Host.Outcome State Fault Refusal :=
  match s.queue with
  | [] => .next s
  | e :: _ =>
    match decode e.req.cmd with
    | .legal i => exec i s
    | .illegal _ => .next (deliver (fun _ => raiseResponse .illegalCommand) s)

/-- The response port at an edge with `rst` = 0: Deliver when `rsp_valid` and `rsp_ready` are both 1
(R25). `valid` is `rsp_valid` as it stood before the edge. -/
def responsePhase (pins : EdgeInput) (valid : Bool) (s : State) : Host.Outcome State Fault Refusal :=
  if valid && pins.rspReady then answerHead s else .next s

/-- One rising edge of `clk`, with the given values on the input ports. With `rst` = 1 the unit is reset
and neither Accept nor Deliver happens (70_reset_and_hazards.md R120); else the response port acts on
the oldest request and the request port on the youngest place of the queue (DEDUCED: assumption log
12). -/
def clockEdge (pins : EdgeInput) (s : State) : Host.Outcome State Fault Refusal :=
  if pins.rst then .next (clockReset (takeInput s))
  else
    afterNext (responsePhase pins (rspValid s) (tick (takeInput s))) (requestPhase pins (reqReady s))

/-- The oldest request of `s` with its command word replaced by `cmd` and its response due, so that the
next edge with `rsp_ready` = 1 runs it; its payload stays. With an empty queue, a request with an
all-zero payload. -/
def placeCommand (cmd : Command) (s : State) : State :=
  match s.queue with
  | [] => { s with queue := [{ req := { cmd := cmd, data := 0 }, wait := 0 }] }
  | e :: rest => { s with queue := { req := { e.req with cmd := cmd }, wait := 0 } :: rest }

/-- The requester takes a response at the coming edge, and does not reset the unit. -/
def willTakeResponse (s : State) : State :=
  { s with stimulus := { nextInput s with rst := false, rspReady := true } :: s.stimulus.tail }

end Sys2Proof.Machine
end

