-- ==== Sys2Proof/Machine/Step.lean ====
section
/-! DEFINITION. One step of the machine: one rising edge of `clk`. -/

namespace Sys2Proof.Machine

/-- One rising edge of `clk`, with the inputs the requester drives at it. -/
def step (s : State) : Host.Outcome State Fault Refusal := clockEdge (nextInput s) s

/-- `s` with the instruction whose low `nbits` bits are `w`, its other bits 0, as the oldest request of
the queue, and the requester ready to take its response at the next edge. The unit has no program
counter: what it runs next is the head of its queue (10_state.md R16, R18). Assumption log 8. -/
def State.withFetchWord (s : State) (nbits w : Nat) : State :=
  willTakeResponse (placeCommand (BitVec.ofNat 32 (w % 2 ^ nbits)) s)

end Sys2Proof.Machine
end

