-- ==== Sys2Proof/Machine/Assembler.lean ====
section
/-! DEFINITION. The assembler of 30_encoding.md R55 and R56: a line as data, its well-formedness, and the
request it stands for. -/

namespace Sys2Proof.Machine

/-- A text payload directive (R55), as numbers. -/
inductive TextPayload where
  /-- `txt`: the character codes of the string. -/
  | txt (codes : List Nat)
  /-- `hex`: the bytes of the lanes, lane 0 first. -/
  | hex (bytes : List Nat)
deriving DecidableEq, Repr

/-- The payload of a `WORD` line: either directive (R55). -/
inductive AnyPayload where
  | text (t : TextPayload)
  /-- `val`: the number of the container. -/
  | val (n : Nat)
deriving DecidableEq, Repr

/-- The options PARSE and PARSE32 share; `none` is an omitted option (R55). -/
structure ParseOptions where
  vd : Option Bool
  vh : Option Bool
  delim : Option Nat
deriving DecidableEq, Repr

/-- One line of the assembler (R55, R56). -/
inductive AsmLine where
  /-- `PARSE [len=] [vd=] [vh=] [delim=] ; <text payload>`. -/
  | parse (len : Option Nat) (opts : ParseOptions) (text : TextPayload)
  /-- `PARSE32 [vd=] [vh=] [delim=] ; <text payload>`, the one pseudo-instruction (R56). -/
  | parse32 (opts : ParseOptions) (text : TextPayload)
  /-- `FORMAT [uc=] [delim=] ; val <number>`. -/
  | format (uc : Option Bool) (delim : Option Nat) (value : Nat)
  /-- `WORD <number> ; <payload>`: a directive, not an instruction. -/
  | word (number : Nat) (payload : AnyPayload)
deriving DecidableEq, Repr

/-- A byte operand is a number 0 to 255 (R55). -/
def byteInRange (d : Option Nat) : Bool := decide (d.getD 0 ≤ 255)

/-- A string of one-byte characters, or exactly 32 bytes, two hex digits a lane (R55). -/
def TextPayload.wellFormed : TextPayload → Bool
  | .txt codes => codes.all fun c => decide (c ≤ 255)
  | .hex bytes => decide (bytes.length = 32) && bytes.all fun b => decide (b ≤ 255)

/-- The ranges of a line's numbers (R55). -/
def AsmLine.wellFormed : AsmLine → Bool
  | .parse len opts text => decide (len.getD 0 ≤ 255) && byteInRange opts.delim && text.wellFormed
  | .parse32 opts text => byteInRange opts.delim && text.wellFormed
  | .format _ delim value => byteInRange delim && decide (value < 2 ^ 64)
  | .word number (.text t) => decide (number < 2 ^ 32) && t.wellFormed
  | .word number (.val n) => decide (number < 2 ^ 32) && decide (n < 2 ^ 64)

/-- The payload whose lane `i` is byte `i` of the list, 0x00 past its end (R55). A byte past lane 31 has no
lane: assumption log 9. -/
def payloadOfBytes (bytes : List Nat) : Payload :=
  ofLanes 32 fun i => BitVec.ofNat 8 (bytes.getD i 0)

/-- The payload of a text directive (R55). -/
def textPayload : TextPayload → Payload
  | .txt codes => payloadOfBytes codes
  | .hex bytes => payloadOfBytes bytes

/-- The payload of a value directive: `req_data[63:0]` is the number, lanes 8 to 31 are 0x00 (R55). -/
def valuePayload (n : Nat) : Payload := (BitVec.ofNat 64 n).setWidth 256

/-- The `len` of a line that gives none: the number of characters, at most 255; 32 for `hex` (R55). -/
def defaultLen : TextPayload → Nat
  | .txt codes => min codes.length 255
  | .hex _ => 32

/-- `DEFAULT_VD` (00_scope.md R6). -/
def defaultVd : Bool := false

/-- `DEFAULT_VH` (00_scope.md R6). -/
def defaultVh : Bool := false

/-- `DEFAULT_DELIM`, `':'` (00_scope.md R6). -/
def defaultDelim : Nat := 0x3A

/-- `DEFAULT_UC` (00_scope.md R6). -/
def defaultUc : Bool := true

/-- The PARSE with the given length and options, defaults filled in (R55, 10_state.md R22). -/
def parseOf (len : Nat) (opts : ParseOptions) : Instr :=
  .parse len (opts.vd.getD defaultVd) (opts.vh.getD defaultVh)
    (BitVec.ofNat 8 (opts.delim.getD defaultDelim))

/-- The FORMAT with the given options, defaults filled in (R55, 10_state.md R22). -/
def formatOf (uc : Option Bool) (delim : Option Nat) : Instr :=
  .format (uc.getD defaultUc) (BitVec.ofNat 8 (delim.getD defaultDelim))

/-- The command word a line emits. `PARSE32` is PARSE with `LEN` = 32 (R56); `WORD` emits its number
unchanged (R55). -/
def commandOf : AsmLine → Command
  | .parse len opts text => encode (parseOf (len.getD (defaultLen text)) opts)
  | .parse32 opts _ => encode (parseOf 32 opts)
  | .format uc delim _ => encode (formatOf uc delim)
  | .word number _ => BitVec.ofNat 32 number

/-- The payload a line emits (R55). -/
def payloadOf : AsmLine → Payload
  | .parse _ _ text => textPayload text
  | .parse32 _ text => textPayload text
  | .format _ _ value => valuePayload value
  | .word _ (.text t) => textPayload t
  | .word _ (.val n) => valuePayload n

/-- The request a line stands for, if its numbers are in range (R55). -/
def assemble (line : AsmLine) : Option Request :=
  if line.wellFormed then some { cmd := commandOf line, data := payloadOf line } else none

end Sys2Proof.Machine
end

