-- ==== Sys2Proof/Machine/AsmText.lean ====
section
/-! DEFINITION. The text of an assembler line (30_encoding.md R55): characters to tokens, tokens to an
`AsmLine`. Where the grammar of R55 leaves spelling open (spaces, the order of options), assumption
log 10 says what is read. -/

namespace Sys2Proof.Machine

/-- A token of an assembler line. -/
inductive Token where
  /-- A run of letters and digits: a mnemonic, a key, a number, a directive, hex digits. -/
  | word (cs : List Char)
  /-- One of `=`, `,` and `;`. -/
  | mark (c : Char)
  /-- A string between double quotes. -/
  | str (cs : List Char)
  /-- A character literal between apostrophes. -/
  | chr (c : Char)
deriving DecidableEq, Repr

/-- What the lexer is inside of; characters collected so far stand newest first. -/
inductive LexMode where
  | between
  | inWord (acc : List Char)
  | inString (acc : List Char)
  | charOpen
  | charHeld (c : Char)
deriving DecidableEq, Repr

/-- The lexer's state; the tokens read so far stand newest first. -/
structure LexState where
  mode : LexMode
  tokens : List Token
deriving DecidableEq, Repr

/-- A letter or a digit. -/
def isWordChar (c : Char) : Bool :=
  (decide ('0' ≤ c) && decide (c ≤ '9')) || (decide ('A' ≤ c) && decide (c ≤ 'Z')) ||
    (decide ('a' ≤ c) && decide (c ≤ 'z'))

/-- A character that begins a token, or a space between tokens. -/
def lexStart (tokens : List Token) (c : Char) : Option LexState :=
  if c = ' ' then some ⟨.between, tokens⟩
  else if c = '"' then some ⟨.inString [], tokens⟩
  else if c = '\'' then some ⟨.charOpen, tokens⟩
  else if isWordChar c then some ⟨.inWord [c], tokens⟩
  else if c = '=' ∨ c = ',' ∨ c = ';' then some ⟨.between, .mark c :: tokens⟩
  else none

/-- The lexer takes one character. -/
def lexStep (st : LexState) (c : Char) : Option LexState :=
  match st.mode with
  | .between => lexStart st.tokens c
  | .inWord acc =>
    if isWordChar c then some ⟨.inWord (c :: acc), st.tokens⟩
    else lexStart (.word acc.reverse :: st.tokens) c
  | .inString acc =>
    if c = '"' then some ⟨.between, .str acc.reverse :: st.tokens⟩
    else some ⟨.inString (c :: acc), st.tokens⟩
  | .charOpen => some ⟨.charHeld c, st.tokens⟩
  | .charHeld x => if c = '\'' then some ⟨.between, .chr x :: st.tokens⟩ else none

/-- The tokens of the characters left, from a lexer state. -/
def lexFrom : LexState → List Char → Option (List Token)
  | ⟨.between, tokens⟩, [] => some tokens.reverse
  | ⟨.inWord acc, tokens⟩, [] => some (.word acc.reverse :: tokens).reverse
  | _, [] => none
  | st, c :: cs =>
    match lexStep st c with
    | some st' => lexFrom st' cs
    | none => none

/-- The tokens of a line. -/
def tokensOf (line : List Char) : Option (List Token) := lexFrom ⟨.between, []⟩ line

/-- The value of a digit in bases up to 16. -/
def digitValue (c : Char) : Option Nat :=
  if '0' ≤ c ∧ c ≤ '9' then some (c.toNat - 0x30)
  else if 'A' ≤ c ∧ c ≤ 'F' then some (c.toNat - 0x37)
  else if 'a' ≤ c ∧ c ≤ 'f' then some (c.toNat - 0x57)
  else none

/-- The number the digits go on to spell after `acc`, most significant first. -/
def readDigits (base acc : Nat) : List Char → Option Nat
  | [] => some acc
  | c :: cs =>
    match digitValue c with
    | some d => if d < base then readDigits base (base * acc + d) cs else none
    | none => none

/-- A number, decimal or `0x` and hex digits (R55). -/
def numberOf : List Char → Option Nat
  | '0' :: 'x' :: c :: cs => readDigits 16 0 (c :: cs)
  | c :: cs => readDigits 10 0 (c :: cs)
  | [] => none

/-- A token that is a number. -/
def numberToken : Token → Option Nat
  | .word cs => numberOf cs
  | _ => none

/-- `<byte>`: a number or a character literal, which stands for its code (R55). -/
def byteToken : Token → Option Nat
  | .word cs => numberOf cs
  | .chr c => some c.toNat
  | _ => none

/-- `<0|1>` (R55). -/
def bitToken : Token → Option Bool
  | .word ['0'] => some false
  | .word ['1'] => some true
  | _ => none

/-- Bytes of two hex digits each, the first lane first (R55). -/
def hexBytes : List Char → Option (List Nat)
  | [] => some []
  | a :: b :: rest =>
    match digitValue a, digitValue b, hexBytes rest with
    | some x, some y, some bytes => some ((16 * x + y) :: bytes)
    | _, _, _ => none
  | [_] => none

/-- An option as written: its key and its value. -/
abbrev KeyValue := List Char × Token

/-- One or more options `key=value` separated by commas, up to the semicolon; and what follows it. -/
def readMoreOptions : List Token → Option (List KeyValue × List Token)
  | .word k :: .mark '=' :: v :: .mark ';' :: rest => some ([(k, v)], rest)
  | .word k :: .mark '=' :: v :: .mark ',' :: rest =>
    match readMoreOptions rest with
    | some (more, after) => some ((k, v) :: more, after)
    | none => none
  | _ => none

/-- The options of a line, none or more. -/
def readOptions : List Token → Option (List KeyValue × List Token)
  | .mark ';' :: rest => some ([], rest)
  | ts => readMoreOptions ts

/-- The value of option `key`, if it is the next one written, and the options after it. -/
def takeOption (key : List Char) : List KeyValue → Option Token × List KeyValue
  | [] => (none, [])
  | (k, v) :: rest => if k = key then (some v, rest) else (none, (k, v) :: rest)

/-- An omitted option stays omitted; a written one must read. -/
def readValue {α : Type} (read : Token → Option α) : Option Token → Option (Option α)
  | none => some none
  | some t => (read t).map some

/-- `txt "<characters>"` or `hex <64 hex digits>` (R55). -/
def readText : List Token → Option TextPayload
  | [.word ['t', 'x', 't'], .str cs] => some (.txt (cs.map Char.toNat))
  | [.word ['h', 'e', 'x'], .word ds] => (hexBytes ds).map .hex
  | _ => none

/-- `val <number>` (R55). -/
def readVal : List Token → Option Nat
  | [.word ['v', 'a', 'l'], t] => numberToken t
  | _ => none

/-- The payload of `WORD`: either directive. -/
def readAnyPayload (ts : List Token) : Option AnyPayload :=
  match readText ts with
  | some t => some (.text t)
  | none => (readVal ts).map .val

/-- `vd`, `vh`, `delim`, in the order of R55, and nothing else. -/
def readParseOptions (os : List KeyValue) : Option ParseOptions :=
  let (vd, os) := takeOption ['v', 'd'] os
  let (vh, os) := takeOption ['v', 'h'] os
  let (delim, os) := takeOption ['d', 'e', 'l', 'i', 'm'] os
  match readValue bitToken vd, readValue bitToken vh, readValue byteToken delim, os with
  | some vd, some vh, some delim, [] => some ⟨vd, vh, delim⟩
  | _, _, _, _ => none

/-- The rest of a PARSE line. -/
def readParse (ts : List Token) : Option AsmLine :=
  match readOptions ts with
  | none => none
  | some (os, after) =>
    let (len, os) := takeOption ['l', 'e', 'n'] os
    match readValue numberToken len, readParseOptions os, readText after with
    | some len, some opts, some text => some (.parse len opts text)
    | _, _, _ => none

/-- The rest of a PARSE32 line. -/
def readParse32 (ts : List Token) : Option AsmLine :=
  match readOptions ts with
  | none => none
  | some (os, after) =>
    match readParseOptions os, readText after with
    | some opts, some text => some (.parse32 opts text)
    | _, _ => none

/-- The rest of a FORMAT line. -/
def readFormat (ts : List Token) : Option AsmLine :=
  match readOptions ts with
  | none => none
  | some (os, after) =>
    let (uc, os) := takeOption ['u', 'c'] os
    let (delim, os) := takeOption ['d', 'e', 'l', 'i', 'm'] os
    match readValue bitToken uc, readValue byteToken delim, os, readVal after with
    | some uc, some delim, [], some v => some (.format uc delim v)
    | _, _, _, _ => none

/-- The rest of a WORD line. -/
def readWord : List Token → Option AsmLine
  | n :: .mark ';' :: after =>
    match numberToken n, readAnyPayload after with
    | some n, some p => some (.word n p)
    | _, _ => none
  | _ => none

/-- The line the tokens spell (R55). -/
def lineOfTokens : List Token → Option AsmLine
  | .word ['P', 'A', 'R', 'S', 'E'] :: ts => readParse ts
  | .word ['P', 'A', 'R', 'S', 'E', '3', '2'] :: ts => readParse32 ts
  | .word ['F', 'O', 'R', 'M', 'A', 'T'] :: ts => readFormat ts
  | .word ['W', 'O', 'R', 'D'] :: ts => readWord ts
  | _ => none

/-- The request a line of text stands for (R55); none if it is not a line of the assembler. -/
def assembleText (line : List Char) : Option Request :=
  match (tokensOf line).bind lineOfTokens with
  | some l => assemble l
  | none => none

end Sys2Proof.Machine
end

