-- ==== Sys2Proof/Machine/ParseStages.lean ====
section
/-! DEFINITION. PARSE's parallel-lane datapath, one definition per stage (40_parse.md R72 to R83). The
machine answers by the functional rules of Machine/Parse.lean, which govern (00_scope.md R8); these
stages must give the same answer (R83). Don't-care lanes (93_implementation_defined.md U15) are free
values: assumption log 5. -/

namespace Sys2Proof.Machine

/-- Stage 1: `too_short` (R72). -/
def stageTooShort (len : Nat) : Bool := decide (len < 17)

/-- Stage 2: the one load of all 32 bytes (R73, 20_memory.md R35). -/
def stageLoad (txt : TextIn) : Lanes 32 := memRead txt 0 32 (by decide)

/-- The low 16-byte half `WL` of the loaded register (R73). -/
def lowHalf (w : Lanes 32) : Lanes 16 := fun i => w ⟨i, by omega⟩

/-- The high 16-byte half `WH` (R73). -/
def highHalf (w : Lanes 32) : Lanes 16 := fun i => w ⟨16 + i, by omega⟩

/-- Stage 3: the five bytes at the delimiter offsets, in lanes 0 to 4 (R74). -/
def stageGather (w : Lanes 32) : Lanes 16 := fun j =>
  if h : j.val < 5 then w ⟨3 * j + 2, by omega⟩ else Config.dontCareLane .gathered j

/-- A register filled with one byte (00_scope.md R12 "broadcast"). -/
def broadcast (b : Byte) : Lanes 16 := fun _ => b

/-- Stage 3: the lane-wise comparison with the delimiter (R74). -/
def stageCompare (g : Lanes 16) (delim : Byte) : Fin 16 → Bool := fun j => g j == broadcast delim j

/-- Stage 3: `delim_ok`, over lanes 0 to 4 (R74). -/
def stageDelimOk (eq : Fin 16 → Bool) : Bool := allLanes 5 fun j => eq (j.castLE (by decide))

/-- Stage 3: `delim_fail` (R74). -/
def stageDelimFail (vd : Bool) (w : Lanes 32) (delim : Byte) : Bool :=
  vd && !stageDelimOk (stageCompare (stageGather w) delim)

/-- A byte permutation within a register: lane `i` takes the lane `ctl i` names, zero where it names
none (00_scope.md R12 "shuffle"). -/
def shuffle (src : Lanes 16) (ctl : Fin 16 → Option (Fin 16)) : Lanes 16 := fun i =>
  match ctl i with
  | some j => src j
  | none => 0

/-- The lane-wise OR of two registers (93_implementation_defined.md U10). -/
def mergeLanes (a b : Lanes 16) : Lanes 16 := fun i => a i ||| b i

/-- Where lanes 0 to 10 of `H` come from in the low half (R75). -/
def dedelimitLow (i : Fin 16) : Option (Fin 16) :=
  if h : i.val < 11 then some ⟨i + i / 2, by omega⟩ else none

/-- Where lane 11 of `H` comes from in the high half (R75). -/
def dedelimitHigh (i : Fin 16) : Option (Fin 16) := if i.val = 11 then some 0 else none

/-- Stage 4: the 12 digit bytes in lanes 0 to 11, zero above (R75). -/
def stageDigits (w : Lanes 32) : Lanes 16 :=
  mergeLanes (shuffle (lowHalf w) dedelimitLow) (shuffle (highHalf w) dedelimitHigh)

/-- Stage 5: bit 0x20 of every lane cleared (R76). It feeds the letter test and the letter arithmetic
only (90_conflicts.md C1). -/
def stageFold (h : Lanes 16) : Lanes 16 := fun i => h i &&& 0xDF

/-- Stage 6: the digit test, on the bytes as loaded (R77). -/
def stageIsDigit (h : Lanes 16) : Fin 16 → Bool := fun i => inRange (h i) 0x30 0x39

/-- Stage 7: the letter test, on the folded bytes (R78). -/
def stageIsLetter (u : Lanes 16) : Fin 16 → Bool := fun i => inRange (u i) 0x41 0x46

/-- Stage 7: `ISHEX` (R78). -/
def stageIsHex (h : Lanes 16) : Fin 16 → Bool := fun i => stageIsDigit h i || stageIsLetter (stageFold h) i

/-- Stage 7: `hex_ok`, over lanes 0 to 11 (R78). -/
def stageHexOk (h : Lanes 16) : Bool := allLanes 12 fun i => stageIsHex h (i.castLE (by decide))

/-- Stage 7: `hex_fail` (R78). -/
def stageHexFail (vh : Bool) (h : Lanes 16) : Bool := vh && !stageHexOk h

/-- Stage 8: the formula of R79, lane by lane. R79 vouches for it only where `ISHEX` is 1. -/
def nibbleFormula (h : Lanes 16) : Lanes 16 := fun i =>
  if stageIsDigit h i then h i - 0x30 else stageFold h i - 0x41 + 10

/-- Stage 8: the nibble of each lane (R79): the formula where `ISHEX` is 1. Where it is 0 R79 leaves the
value unspecified, and the lane holds a free value of its own byte (DESIGN CHOICE: assumption log 5),
which `stageCompact` never passes on. -/
def stageNibble (h : Lanes 16) : Lanes 16 := fun i =>
  if stageIsHex h i then nibbleFormula h i else Config.nonhexNibble (h i)

/-- Stage 9: one multiply-add per 16-bit lane (R80). -/
def stagePair (nib : Lanes 16) : Fin 8 → BitVec 16 := fun k =>
  (nib ⟨2 * k, by omega⟩).setWidth 16 * 16 + (nib ⟨2 * k + 1, by omega⟩).setWidth 16 * 1

/-- Stage 10: the low byte of each 16-bit lane, for an octet with a non-hex digit byte the open parameter
(R81); lanes 6 and up don't-care. -/
def stageCompact (nonhex : Byte → Byte → Byte) (h : Lanes 16) : Lanes 16 := fun k =>
  if hk : k.val < 6 then
    if stageIsHex h ⟨2 * k, by omega⟩ && stageIsHex h ⟨2 * k + 1, by omega⟩ then
      (stagePair (stageNibble h) ⟨k, by omega⟩).setWidth 8
    else nonhex (h ⟨2 * k, by omega⟩) (h ⟨2 * k + 1, by omega⟩)
  else Config.dontCareLane .octets k

/-- Stage 11: the low 64 bits of the register, `q` (R82). -/
def stageExtract (o : Lanes 16) : Container := ofLanes 8 fun i => o (i.castLE (by decide))

/-- Stage 11: `r = bswap64(q) >> 16` (R82). -/
def stageSwapShift (q : Container) : Container := bswap64 q >>> 16

/-- Stage 11: `value = r[47:0]` (R82). -/
def stageValue (nonhex : Byte → Byte → Byte) (h : Lanes 16) : MacValue :=
  (stageSwapShift (stageExtract (stageCompact nonhex h))).extractLsb' 0 48

/-- Stage 12: the one selection at the end (R83). Every stage is computed for every request. -/
def parseByStages (nonhex : Byte → Byte → Byte) (txt : TextIn) (len : Nat) (vd vh : Bool)
    (delim : Byte) : ParseResult :=
  let w := stageLoad txt
  let h := stageDigits w
  let tooShort := stageTooShort len
  let delimFail := stageDelimFail vd w delim
  let hexFail := stageHexFail vh h
  let value := stageValue nonhex h
  if tooShort then .absent .tooShort
  else if delimFail then .absent .delimiterMismatch
  else if hexFail then .absent .invalidHexDigit
  else .present value

end Sys2Proof.Machine
end

