-- ==== Sys2Proof/Machine/FormatStages.lean ====
section
/-! DEFINITION. FORMAT's parallel-lane datapath, one definition per stage (41_format.md R87 to R96). The
machine answers by the functional rules of Machine/Format.lean (00_scope.md R8); these stages must
give the same text (R96). Don't-care lanes are free values: assumption log 5. -/

namespace Sys2Proof.Machine

/-- Stage 1: mask to 48 bits and reorder, `s = bswap64(m) >> 16` (R87, 90_conflicts.md C2). -/
def stageReorder (v : Container) : Container := bswap64 ((maskedValue v).setWidth 64) >>> 16

/-- Stage 2: the 8 bytes of `s` broadcast into 16 lanes (R88). -/
def stageSpreadOctets (s : Container) : Lanes 16 := fun i => lane s (i % 8)

/-- Stage 3: the high nibbles (R89). -/
def stageHigh (x : Lanes 16) : Lanes 16 := fun i => (x i &&& 0xF0) >>> 4

/-- Stage 3: the low nibbles (R89). -/
def stageLow (x : Lanes 16) : Lanes 16 := fun i => x i &&& 0x0F

/-- Stage 4: the table lookup in every lane; the table is chosen once, by `UC` (R90). -/
def stageLookup (uc : Bool) (n : Lanes 16) : Lanes 16 := fun i => hexChar uc ((n i).setWidth 4)

/-- Stage 5: where the high digits go in `D`: the even lanes 0 to 10 (R91). -/
def interleaveHigh (i : Fin 16) : Option (Fin 16) :=
  if i.val < 12 ∧ i.val % 2 = 0 then some ⟨i / 2, by omega⟩ else none

/-- Stage 5: where the low digits go in `D`: the odd lanes 1 to 11 (R91). -/
def interleaveLow (i : Fin 16) : Option (Fin 16) :=
  if i.val < 12 ∧ i.val % 2 = 1 then some ⟨i / 2, by omega⟩ else none

/-- Stage 5: the dense digit stream `D`, in lanes 0 to 11 (R91). -/
def stageDense (hc lc : Lanes 16) : Lanes 16 :=
  mergeLanes (shuffle hc interleaveHigh) (shuffle lc interleaveLow)

/-- Stage 5: the digits at their output offsets, `S` (R91, 90_conflicts.md C4); the delimiter lanes are
don't-care. -/
def stageSpread (d : Lanes 16) : Lanes 16 := fun i =>
  if i.val % 3 = 0 then d ⟨2 * (i / 3), by omega⟩
  else if i.val % 3 = 1 then d ⟨2 * (i / 3) + 1, by omega⟩
  else Config.dontCareLane .spread i

/-- The constant position mask: 1 at offsets 2, 5, 8, 11, 14 (R92). -/
def delimiterMask (i : Fin 16) : Bool := i.val % 3 == 2

/-- Stage 6: the select of delimiter or digit in every lane (R92). -/
def stageInsert (s : Lanes 16) (delim : Byte) : Lanes 16 := fun i =>
  if delimiterMask i then broadcast delim i else s i

/-- `OUT` before the two stores: nothing has been written (R93, R94). -/
def outBefore : TextOut := fun i => Config.dontCareLane .out i

/-- Stage 7: the store of 16 bytes (R93). -/
def stageStore (out : TextOut) (o16 : Lanes 16) : TextOut := memWrite out 0 16 (by decide) o16

/-- Stage 8: the 17th byte, `D[11]` (R94). -/
def stageLast (out : TextOut) (d : Lanes 16) : TextOut := memWrite out 16 1 (by decide) fun _ => d 11

/-- Stage 9: the count (R95). -/
def stageCount : Nat := 17

/-- The digit stream `D` of an operand: stages 1 to 5 (R87 to R91). -/
def digitStream (v : Container) (uc : Bool) : Lanes 16 :=
  let x := stageSpreadOctets (stageReorder v)
  stageDense (stageLookup uc (stageHigh x)) (stageLookup uc (stageLow x))

/-- The stages together (R87 to R95): the 17 bytes and the count. -/
def formatByStages (v : Container) (delim : Byte) (uc : Bool) : TextOut × Nat :=
  let d := digitStream v uc
  let o16 := stageInsert (stageSpread d) delim
  (stageLast (stageStore outBefore o16) d, stageCount)

end Sys2Proof.Machine
end

