-- ==== Sys2Proof/Machine/Respond.lean ====
section
/-! DEFINITION. `Exec : Request -> Response` (10_state.md R14, 30_encoding.md R57), the failure cause of a
request as a ghost value (60_exceptions.md R106, R109), and the output ports (10_state.md R25). -/

namespace Sys2Proof.Machine

/-- `Exec` (30_encoding.md R57), total on every request and a function of it alone (R14). -/
def respond (r : Request) : Response :=
  match decode r.cmd with
  | .illegal _ => raiseResponse .illegalCommand
  | .legal (.parse len vd vh delim) => parseResponse len vd vh delim r.data
  | .legal (.format uc delim) => formatResponse uc delim r.data

/-- Which failure, if any, a request meets: `IllegalCommand` before all others (60_exceptions.md R109),
then PARSE's own (R106); FORMAT raises nothing (R108). -/
def requestCause (r : Request) : Option FailureCause :=
  match decode r.cmd with
  | .illegal _ => some .illegalCommand
  | .legal (.parse len vd vh delim) => parseCause (txtOf r.data) len vd vh delim
  | .legal (.format _ _) => none

/-- The output ports in a cycle (10_state.md R25): while a response is valid its three fields are those
of the oldest request; while none is, they are zero. -/
def outPins (s : State) : OutPins :=
  match s.queue with
  | [] => { reqReady := reqReady s, rspValid := rspValid s, rspStatus := 0, rspCount := 0, rspData := 0 }
  | e :: _ =>
    if rspValid s then
      { reqReady := reqReady s, rspValid := true, rspStatus := statusCode (respond e.req).status
        rspCount := (respond e.req).count, rspData := (respond e.req).data }
    else { reqReady := reqReady s, rspValid := false, rspStatus := 0, rspCount := 0, rspData := 0 }

end Sys2Proof.Machine
end

