-- ==== Sys2Proof/Machine/Timing.lean ====
section
/-! DEFINITION. The one timing rule of the spec (70_reset_and_hazards.md R126), beside the machine: "no rule
of the model depends on it". The step takes the wait of a request from its input; here stands which waits
a unit with the latencies `LAT_PARSE` and `LAT_FORMAT` would bring. -/

namespace Sys2Proof.Machine

/-- Cycles from the Accept of a command word to the first cycle its response may be presented (R126):
`LAT_FORMAT` for FORMAT; `LAT_PARSE` for PARSE and for an illegal command. It reads nothing but the
word. -/
def latency (cmd : Command) : Nat :=
  match decode cmd with
  | .legal (.format _ _) => Config.latFormat
  | .legal (.parse _ _ _ _) => Config.latParse
  | .illegal _ => Config.latParse

/-- What the coming edge accepts: the captured request when `rst` = 0 and `req_valid` and `req_ready` are
both 1 (10_state.md R25), else nothing. -/
def acceptedNow (s : State) : List Request :=
  if (nextInput s).rst then []
  else if (nextInput s).reqValid && reqReady s then [captured s (nextInput s)]
  else []

/-- The coming edge keeps R126: a request it accepts draws its own latency. -/
def keepsLatency (s : State) : Prop := ∀ r ∈ acceptedNow s, (nextInput s).unitWait = latency r.cmd

end Sys2Proof.Machine
end

