-- ==== Sys2Proof/Safety.lean ====
section
/-! DEFINITION. The terms claims are made in: the two steps of the unit as the spec's own relation
(10_state.md R16), what an edge leaves of the queue, the outcome of a run (70_reset_and_hazards.md R127), and what
a good state is. -/

namespace Sys2Proof.Machine

/-! ## The step relation of 10_state.md R16 -/

/-- `Q` as R15 has it: the requests, oldest first. -/
def State.requests (s : State) : List Request := s.queue.map Entry.req

/-- The two steps of the unit (R16). -/
inductive UnitAction where
  | accept (r : Request)
  | deliver (rsp : Response)
deriving DecidableEq, Repr

/-- `Accept(r)` and `Deliver` of R16, as steps from `Q` to `Q`. -/
inductive UnitStep : List Request → UnitAction → List Request → Prop where
  | accept (q : List Request) (r : Request) (room : q.length < Config.depth) :
      UnitStep q (.accept r) (q ++ [r])
  | deliver (r : Request) (q : List Request) : UnitStep (r :: q) (.deliver (respond r)) q

/-- A finite sequence of steps of R16. -/
inductive UnitTrace : List Request → List UnitAction → List Request → Prop where
  | done (q : List Request) : UnitTrace q [] q
  | more {q q' q'' : List Request} {a : UnitAction} {as : List UnitAction}
      (first : UnitStep q a q') (rest : UnitTrace q' as q'') : UnitTrace q (a :: as) q''

/-- The requests a sequence of steps accepts, in order. -/
def acceptedOf (as : List UnitAction) : List Request :=
  as.filterMap fun a => match a with
    | .accept r => some r
    | .deliver _ => none

/-- The responses a sequence of steps emits, in order. -/
def emittedOf (as : List UnitAction) : List Response :=
  as.filterMap fun a => match a with
    | .accept _ => none
    | .deliver rsp => some rsp

/-! ## Runs -/

/-- The state after one edge. -/
def afterStep (s : State) : State :=
  match step s with
  | .next t => t
  | .fault _ => s
  | .refused _ => s

/-- The state after `k` edges. -/
def afterSteps : Nat → State → State
  | 0, s => s
  | k + 1, s => afterSteps k (afterStep s)

/-- What the coming edge leaves of the queue, before an Accept: the oldest request gone if its response is
taken (10_state.md R25), and every wait counted down by one. -/
def keptQueue (s : State) : List Entry :=
  (s.queue.drop (if rspValid s && (nextInput s).rspReady then 1 else 0)).map
    fun e => { req := e.req, wait := e.wait - 1 }

/-- The requests accepted in the next `k` edges, in order: the `r_1 .. r_n` of a run
(70_reset_and_hazards.md R127). -/
def acceptedIn : Nat → State → List Request
  | 0, _ => []
  | k + 1, s => acceptedNow s ++ acceptedIn k (afterStep s)

/-- No reset in the next `k` edges. -/
def noResetFor (k : Nat) (s : State) : Prop := ∀ pins ∈ s.stimulus.take k, pins.rst = false

/-- The requester takes responses at each of the next `k` edges. -/
def takesFor (k : Nat) (s : State) : Prop :=
  k ≤ s.stimulus.length ∧ ∀ pins ∈ s.stimulus.take k, pins.rspReady = true

/-- What a state has answered and will answer, if nothing more is accepted and no reset comes. -/
def answersOf (s : State) : List Response := s.delivered ++ s.requests.map respond

/-! ## The case of letters (45_properties.md R102, R103) -/

/-- The letters of the hex set, in either case (00_scope.md R11). -/
def isHexLetter (b : Byte) : Bool := inRange b 0x41#8 0x46#8 || inRange b 0x61#8 0x66#8

/-- The same byte, or the same hex letter in the other case (R102). -/
def sameButForCase (a b : Byte) : Prop :=
  a = b ∨ (isHexLetter a = true ∧ isHexLetter b = true ∧ a &&& 0xDF = b &&& 0xDF)

/-- A hex letter put into the case `uc` selects, any other byte as it is (R103 (e)). -/
def inCase (uc : Bool) (b : Byte) : Byte :=
  if isHexLetter b then (if uc then b &&& 0xDF else b ||| 0x20) else b

/-! ## Good states -/

/-- A response the unit may give (30_encoding.md R50 to R52): OK with 17 bytes, or OK with a 48-bit value
and nothing above it, or a failure with all zeros. -/
def Response.lawful (r : Response) : Prop :=
  (r.status = .ok ∧ r.count = 17) ∨ (r.status = .ok ∧ r.count = 0 ∧ r.data.toNat < 2 ^ 48) ∨
    (r.status ≠ .ok ∧ r.count = 0 ∧ r.data = 0)

/-- The queue holds at most `DEPTH` requests (10_state.md R15), and every response taken is one the unit
may give. -/
structure State.Good (s : State) : Prop where
  room : s.queue.length ≤ Config.depth
  answers : ∀ r ∈ s.delivered, r.lawful

/-- No request in the queue waits longer than its latency (70_reset_and_hazards.md R126). -/
def State.InTime (s : State) : Prop := ∀ e ∈ s.queue, e.wait ≤ latency e.req.cmd

/-! ## The lanes of an assembler payload (30_encoding.md R55) -/

/-- Lane `i` holds number `i` of the list, and the lanes past its end hold 0x00. -/
def lanesHold (data : Payload) (numbers : List Nat) : Prop :=
  ∀ i : Fin 32, (∀ n, numbers[i.val]? = some n → (lane data i).toNat = n) ∧
    (numbers.length ≤ i.val → lane data i = 0)

end Sys2Proof.Machine
end

