-- ==== Sys2Proof/Certificates/Slice0/Obligations.lean ====
section
/-! DEFINITION. What is claimed of the model, for the provers. OBLIGATIONS.json says of each which rule of
the spec it formalises. Throughout, `nonhex` is the open parameter `NONHEX_OCTET` (40_parse.md R71): a
statement with it holds for every such function. -/

open Sys2Proof Sys2Proof.Machine

/-! ## Commands -/

/-- O1. Decoding what the encoder writes gives the instruction back, every operand at every value. -/
def Obligations.DecodeOfEncode : Prop :=
  ∀ i : Instr, i.wellFormed = true → decode (encode i) = .legal i

/-- O2. A legal word is its instruction's word but for the fields the operation ignores: `UC` for PARSE;
`LEN`, `VH`, `VD` for FORMAT. -/
def Obligations.EncodeOfDecode : Prop :=
  ∀ (w : Command) (i : Instr), decode w = .legal i →
    i.wellFormed = true ∧
    (∀ len vd vh delim, i = .parse len vd vh delim → encode i = w &&& 0xFFFFFBFF#32) ∧
    (∀ uc delim, i = .format uc delim → encode i = w &&& 0xFF00FCFF#32)

/-- O3. The two rows of the opcode map (R54): what each decodes to, field by field; a word of neither is
illegal; no word is of both. -/
def Obligations.OpcodeMapDecides : Prop :=
  ∀ w : Command,
    (w &&& 0xFF00F800#32 = 0x01000000#32 → decode w = .legal (.parse (w.extractLsb' 16 8).toNat
      (w.getLsbD 8) (w.getLsbD 9) (w.extractLsb' 0 8))) ∧
    (w &&& 0xFF00F800#32 = 0x02000000#32 →
      decode w = .legal (.format (w.getLsbD 10) (w.extractLsb' 0 8))) ∧
    (w &&& 0xFF00F800#32 ≠ 0x01000000#32 → w &&& 0xFF00F800#32 ≠ 0x02000000#32 →
      ∃ why, decode w = .illegal why) ∧
    ¬ (rowMatches rowParse w = true ∧ rowMatches rowFormat w = true) ∧
    (rowMatches rowParse w = true ↔ w &&& 0xFF00F800#32 = 0x01000000#32) ∧
    (rowMatches rowFormat w = true ↔ w &&& 0xFF00F800#32 = 0x02000000#32)

/-- O4. Exactly which words are illegal (R53), what they answer, and that only their own request is
affected; every other word with `OPC` 1 or 2 is legal, so no word is a no-operation or a hint. -/
def Obligations.IllegalWordsExactly : Prop :=
  ∀ w : Command,
    ((∃ why, decode w = .illegal why) ↔
      ((w.extractLsb' 24 8 ≠ 0x01#8 ∧ w.extractLsb' 24 8 ≠ 0x02#8) ∨ w.extractLsb' 11 5 ≠ 0#5)) ∧
    (w.extractLsb' 24 8 = 0x01#8 → w.extractLsb' 11 5 = 0#5 →
      ∃ len vd vh delim, decode w = .legal (.parse len vd vh delim)) ∧
    (w.extractLsb' 24 8 = 0x02#8 → w.extractLsb' 11 5 = 0#5 →
      ∃ uc delim, decode w = .legal (.format uc delim)) ∧
    (∀ why, decode w = .illegal why →
      (∀ data, respond { cmd := w, data := data } = { status := .illegal, count := 0, data := 0 }) ∧
      (∀ (s : State) (e : Entry) (rest : List Entry), s.queue = e :: rest → e.req.cmd = w →
        answerHead s = .next { s with
          queue := rest
          delivered := s.delivered ++ [{ status := .illegal, count := 0, data := 0 }] }))

/-- O5. The command words the spec works out (R58), written by the assembler from the spec's own lines; and
its illegal words. -/
def Obligations.WorkedCommandWords : Prop :=
  (["PARSE len=17 ; txt \"\"", "PARSE len=17, vd=1 ; txt \"\"", "PARSE len=17, vh=1 ; txt \"\"",
    "PARSE len=17, vd=1, vh=1 ; txt \"\"", "PARSE len=17, delim='-' ; txt \"\"",
    "PARSE len=17, vd=1, delim='-' ; txt \"\"", "PARSE len=16 ; txt \"\"", "PARSE len=0 ; txt \"\"",
    "PARSE32 ; txt \"\"", "PARSE len=255, vd=1, vh=1 ; txt \"\"", "FORMAT ; val 0",
    "FORMAT uc=0 ; val 0", "FORMAT delim='-' ; val 0", "FORMAT uc=0, delim=0x00 ; val 0"].map
      fun line => (assembleText line.toList).map Request.cmd) =
    [0x0111003A#32, 0x0111013A, 0x0111023A, 0x0111033A, 0x0111002D, 0x0111012D, 0x0110003A, 0x0100003A,
      0x0120003A, 0x01FF033A, 0x0200043A, 0x0200003A, 0x0200042D, 0x02000000].map some ∧
  ([0x00000000#32, 0x0300003A, 0xFF00003A, 0x0111083A, 0x0200843A].map decode) =
    [.illegal (.unknownOpcode 0x00), .illegal (.unknownOpcode 0x03), .illegal (.unknownOpcode 0xFF),
      .illegal (.reservedBits 0b00001), .illegal (.reservedBits 0b10000)]

/-- O6. Words written out bit by bit from the layout of R42 decode to the instructions they stand for. -/
def Obligations.WordsDecode : Prop :=
  decode 0b00000001000100010000001100111010#32 = .legal (.parse 17 true true 0x3A) ∧
  decode 0b00000001111111110000010111111111#32 = .legal (.parse 255 true false 0xFF) ∧
  decode 0b00000010000000000000010000101101#32 = .legal (.format true 0x2D) ∧
  decode 0b00000010111111110000001110000000#32 = .legal (.format false 0x80)

/-- O7. A field an operation ignores does not change its response (R46): a PARSE word and the word that
differs from it in `UC` only; FORMAT words that differ in `LEN`, `VH`, `VD` only. -/
def Obligations.IgnoredFieldsDoNotMatter : Prop :=
  ∀ (len len' : BitVec 8) (uc vd vh vd' vh' : Bool) (delim : Byte) (data : Payload),
    respond { cmd := packCommand 0x01#8 len 0#5 uc vh vd delim, data := data } =
      respond { cmd := packCommand 0x01#8 len 0#5 (!uc) vh vd delim, data := data } ∧
    respond { cmd := packCommand 0x02#8 len 0#5 uc vh vd delim, data := data } =
      respond { cmd := packCommand 0x02#8 len' 0#5 uc vh' vd' delim, data := data }

/-! ## What each instruction does to the machine -/

/-- O8. PARSE completes with every operand and every payload: the oldest request leaves the queue, one
response is emitted, and no other field of the state changes. The response is the one R57 and R60 give:
`(ABSENT, 0, 0)` when one of the three tests fails; else OK, count 0, octet `k` of the value from digit
bytes `3k` and `3k+1` (R68, R71) in bits `47-8k:40-8k`, and zero above bit 47. -/
def Obligations.ParseCompletes : Prop :=
  ∀ (len : Nat) (vd vh : Bool) (delim : Byte) (s : State) (e : Entry) (rest : List Entry),
    s.queue = e :: rest →
    ∃ rsp : Response,
      exec (.parse len vd vh delim) s =
        .next { s with queue := rest, delivered := s.delivered ++ [rsp] } ∧
      (len < 17 ∨ (vd = true ∧ ∃ j : Fin 5, lane e.req.data (3 * j + 2) ≠ delim) ∨
          (vh = true ∧ ∃ i : Fin 12, isHex (lane e.req.data (i + i / 2)) = false) →
        rsp = { status := .absent, count := 0, data := 0 }) ∧
      (17 ≤ len → (vd = true → ∀ j : Fin 5, lane e.req.data (3 * j + 2) = delim) →
          (vh = true → ∀ i : Fin 12, isHex (lane e.req.data (i + i / 2)) = true) →
        rsp.status = .ok ∧ rsp.count = 0 ∧ rsp.data.extractLsb' 48 88 = 0 ∧
        ∀ k : Fin 6, rsp.data.extractLsb' (40 - 8 * k) 8 =
          if isHex (lane e.req.data (3 * k)) && isHex (lane e.req.data (3 * k + 1)) then
            BitVec.ofNat 8 (16 * hexValue (lane e.req.data (3 * k)) +
              hexValue (lane e.req.data (3 * k + 1)))
          else Config.nonhexOctet (lane e.req.data (3 * k)) (lane e.req.data (3 * k + 1)))

/-- O9. FORMAT completes with every operand and every payload: the oldest request leaves the queue, one
response is emitted, and no other field of the state changes. The response is OK, count 17, the two hex
characters of octet `k` of `V[47:0]` at offsets `3k` and `3k+1` and the delimiter at the other five
(R84, R86). -/
def Obligations.FormatCompletes : Prop :=
  ∀ (uc : Bool) (delim : Byte) (s : State) (e : Entry) (rest : List Entry), s.queue = e :: rest →
    ∃ rsp : Response,
      exec (.format uc delim) s =
        .next { s with queue := rest, delivered := s.delivered ++ [rsp] } ∧
      rsp.status = .ok ∧ rsp.count = 17 ∧
      (∀ k : Fin 6,
        lane rsp.data (3 * k) = hexChar uc (e.req.data.extractLsb' (44 - 8 * k) 4) ∧
        lane rsp.data (3 * k + 1) = hexChar uc (e.req.data.extractLsb' (40 - 8 * k) 4)) ∧
      ∀ j : Fin 5, lane rsp.data (3 * j + 2) = delim

/-- O10. With no request accepted there is nothing to answer (R16: Deliver is not enabled), so neither
instruction changes anything: the model's choice, assumption log 11. -/
def Obligations.NothingToAnswer : Prop :=
  ∀ (i : Instr) (s : State), s.queue = [] → exec i s = .next s

/-- O11. An edge on which the requester takes a due response runs the instruction the oldest request's word
decodes to (R16, R57). What the edge does around it is the model's: the waits count on first (assumption
log 2), the input is taken (log 6), and the request port acts on the same edge, after Deliver (log
12). -/
def Obligations.EdgeRunsTheDecodedInstruction : Prop :=
  ∀ (s : State) (e : Entry) (rest : List Entry) (i : Instr), s.queue = e :: rest → e.wait = 0 →
    (nextInput s).rst = false → (nextInput s).rspReady = true → decode e.req.cmd = .legal i →
    i.wellFormed = true ∧
    step s = afterNext (exec i (tick (takeInput s))) (requestPhase (nextInput s) (reqReady s))

/-- O12. No run ever stops: whatever is accepted, every edge has a next state ("failures are reported,
never thrown as fatal aborts", R107), so the host's run of `k` steps is `afterSteps k`. -/
def Obligations.RunsNeverStop : Prop :=
  ∀ (k : Nat) (s : State), Host.Core.run Sys2Proof.core k s = .next (afterSteps k s)

/-! ## Failures -/

/-- O13. PARSE is absent exactly when `Cause` of R106 is not `none`, and the cause it carries is that one. -/
def Obligations.AbsentExactlyWhenACause : Prop :=
  ∀ (nonhex : Byte → Byte → Byte) (txt : TextIn) (len : Nat) (vd vh : Bool) (delim : Byte),
    (∀ c, parseText nonhex txt len vd vh delim = .absent c ↔ parseCause txt len vd vh delim = some c) ∧
    ((∃ c, parseText nonhex txt len vd vh delim = .absent c) ↔
      parseCause txt len vd vh delim ≠ none) ∧
    parseCause txt len vd vh delim =
      (if len < 17 then some .tooShort
      else if vd = true ∧ ∃ j : Fin 5, txt ⟨3 * j + 2, by omega⟩ ≠ delim then some .delimiterMismatch
      else if vh = true ∧ ∃ i : Fin 12, isHex (txt ⟨i + i / 2, by omega⟩) = false then
        some .invalidHexDigit
      else none)

/-- O14. The response tells which of the two kinds of failure, and never which parse cause: the three parse
causes all answer `(ABSENT, 0, 0)`, an illegal word `(ILLEGAL, 0, 0)` before any of them; a request with
no cause answers OK. -/
def Obligations.CausesAreIndistinguishable : Prop :=
  ∀ r : Request,
    (∀ c, requestCause r = some c → c ≠ .illegalCommand →
      respond r = { status := .absent, count := 0, data := 0 }) ∧
    (requestCause r = some .illegalCommand →
      respond r = { status := .illegal, count := 0, data := 0 }) ∧
    (requestCause r = none → (respond r).status = .ok) ∧
    (∀ len vd vh delim, decode r.cmd = .legal (.parse len vd vh delim) →
      (presentFlag (respond r) = true ↔ requestCause r = none)) ∧
    ((∃ why, decode r.cmd = .illegal why) ↔ requestCause r = some .illegalCommand)

/-- O15. A text shorter than 17 bytes is refused under every configuration; the unvalidated parser refuses
nothing else (R99). -/
def Obligations.ShortInputRefused : Prop :=
  ∀ (nonhex : Byte → Byte → Byte) (txt : TextIn) (vd vh : Bool) (delim : Byte) (len : Nat),
    (len ≤ 16 → parseText nonhex txt len vd vh delim = .absent .tooShort) ∧
    (17 ≤ len → len ≤ 255 → ∃ v, parseText nonhex txt len false false delim = .present v)

/-- O16. The length test (R62): it fails exactly for `LEN < 17`, under every configuration; then the text
is not looked at. -/
def Obligations.LengthTestAlone : Prop :=
  ∀ (nonhex nonhex' : Byte → Byte → Byte) (txt txt' : TextIn) (vd vh vd' vh' : Bool) (delim delim' : Byte)
    (len : Nat),
    (len < 17 → parseText nonhex txt len vd vh delim = .absent .tooShort ∧
      parseText nonhex txt len vd vh delim = parseText nonhex' txt' len vd' vh' delim') ∧
    (17 ≤ len → parseText nonhex txt len vd vh delim ≠ .absent .tooShort)

/-- O17. Delimiter validation (R101): with `VD` = 1 it passes exactly when all five bytes equal `DELIM`, so
altering any one gives an absent result; with `VD` = 0 their content and `DELIM` do not matter. -/
def Obligations.DelimiterValidation : Prop :=
  ∀ (nonhex : Byte → Byte → Byte) (txt : TextIn) (len : Nat) (vh : Bool) (delim : Byte), 17 ≤ len →
    (parseText nonhex txt len true vh delim = .absent .delimiterMismatch ↔
      ∃ j : Fin 5, txt ⟨3 * j + 2, by omega⟩ ≠ delim) ∧
    (∀ (j : Fin 5) (b : Byte), b ≠ delim →
      parseText nonhex (Function.update txt ⟨3 * j + 2, by omega⟩ b) len true vh delim =
        .absent .delimiterMismatch) ∧
    (∀ (txt' : TextIn) (delim' : Byte),
      (∀ i : Fin 32, (∀ j : Fin 5, i.val ≠ 3 * j + 2) → txt' i = txt i) →
      parseText nonhex txt' len false vh delim' = parseText nonhex txt len false vh delim)

/-- O18. Hex validation (R100): with `VH` = 1 and the delimiter test passed or off the result is present
exactly when all 12 digit bytes are in the hex set; with `VH` = 0 the same text is present, with the
octets of R71. -/
def Obligations.HexValidation : Prop :=
  ∀ (nonhex : Byte → Byte → Byte) (txt : TextIn) (len : Nat) (vd : Bool) (delim : Byte), 17 ≤ len →
    (vd = true → ∀ j : Fin 5, txt ⟨3 * j + 2, by omega⟩ = delim) →
    ((∃ v, parseText nonhex txt len vd true delim = .present v) ↔
      ∀ i : Fin 12, isHex (txt ⟨i + i / 2, by omega⟩) = true) ∧
    ∃ v, parseText nonhex txt len vd false delim = .present v ∧
      ∀ k : Fin 6, octetOf v k =
        if isHex (txt ⟨3 * k, by omega⟩) && isHex (txt ⟨3 * k + 1, by omega⟩) then
          BitVec.ofNat 8 (16 * hexValue (txt ⟨3 * k, by omega⟩) + hexValue (txt ⟨3 * k + 1, by omega⟩))
        else nonhex (txt ⟨3 * k, by omega⟩) (txt ⟨3 * k + 1, by omega⟩)

/-! ## Characters and numbers -/

/-- O19. The hex set is exactly the 22 bytes of R11, and the two ways R65 gives of testing for it agree. -/
def Obligations.HexSetIsTheTwentyTwo : Prop :=
  ∀ b : Byte,
    (isHex b = true ↔ (0x30#8 ≤ b ∧ b ≤ 0x39#8) ∨ (0x41#8 ≤ b ∧ b ≤ 0x46#8) ∨ (0x61#8 ≤ b ∧ b ≤ 0x66#8)) ∧
    isHex b = (isDigit b || inRange (b &&& 0xDF) 0x41 0x46)

/-- O20. An octet of two hex characters is `16*hv(high) + hv(low)` as a number: no overflow (R68). -/
def Obligations.OctetOfTwoHexDigits : Prop :=
  ∀ (nonhex : Byte → Byte → Byte) (hi lo : Byte), isHex hi = true → isHex lo = true →
    hexValue hi ≤ 15 ∧ hexValue lo ≤ 15 ∧
    (octetOfDigits nonhex hi lo).toNat = 16 * hexValue hi + hexValue lo

/-- O21. The value is the sum of the octets, octet 0 in bits 47:40 and octet 5 in bits 7:0; it is below
2^48, and the bits of the response above it are zero (R69). -/
def Obligations.ValueIsTheSumOfOctets : Prop :=
  ∀ oct : Lanes 6,
    (valueOfOctets oct).toNat = (oct 0).toNat * 2 ^ 40 + (oct 1).toNat * 2 ^ 32 + (oct 2).toNat * 2 ^ 24 +
      (oct 3).toNat * 2 ^ 16 + (oct 4).toNat * 2 ^ 8 + (oct 5).toNat ∧
    (valueOfOctets oct).toNat < 2 ^ 48 ∧
    (∀ k : Fin 6, (valueOfOctets oct).extractLsb' (40 - 8 * k) 8 = oct k) ∧
    (answerParse (.present (valueOfOctets oct))).data.extractLsb' 48 88 = 0

/-- O22. The two hex digit tables, entry by entry, and that `hv` reads them back (R85). -/
def Obligations.HexTables : Prop :=
  ((List.range 16).map fun n => hexChar true (BitVec.ofNat 4 n)) =
    [0x30, 0x31, 0x32, 0x33, 0x34, 0x35, 0x36, 0x37, 0x38, 0x39, 0x41, 0x42, 0x43, 0x44, 0x45, 0x46] ∧
  ((List.range 16).map fun n => hexChar false (BitVec.ofNat 4 n)) =
    [0x30, 0x31, 0x32, 0x33, 0x34, 0x35, 0x36, 0x37, 0x38, 0x39, 0x61, 0x62, 0x63, 0x64, 0x65, 0x66] ∧
  ∀ (uc : Bool) (n : BitVec 4), hexValue (hexChar uc n) = n.toNat

/-- O23. The two byte swaps of R33: PARSE's brings octet 0 to the top of the 48-bit value and drops lanes 6
and 7; FORMAT's brings octet `k` to lane `k` and leaves lanes 6 and 7 zero. -/
def Obligations.ByteSwaps : Prop :=
  (∀ o : Lanes 8, bswap64 (ofLanes 8 o) >>> 16 =
    0#16 ++ o 0 ++ o 1 ++ o 2 ++ o 3 ++ o 4 ++ o 5) ∧
  (∀ m : MacValue,
    (∀ k : Fin 6, lane (bswap64 (m.setWidth 64) >>> 16) k = m.extractLsb' (40 - 8 * k) 8) ∧
    lane (bswap64 (m.setWidth 64) >>> 16) 6 = 0 ∧ lane (bswap64 (m.setWidth 64) >>> 16) 7 = 0)

/-! ## The parallel-lane datapath -/

/-- O24. For every request the stages of PARSE give the result of the functional rules (R83): the same
three tests, the same digit bytes, the same octets, the same result. -/
def Obligations.ParseStagesAgree : Prop :=
  ∀ (nonhex : Byte → Byte → Byte) (txt : TextIn) (len : Nat) (vd vh : Bool) (delim : Byte),
    stageTooShort len = lengthFails len ∧
    stageDelimFail vd (stageLoad txt) delim = (vd && delimitersFail txt delim) ∧
    stageHexFail vh (stageDigits (stageLoad txt)) = (vh && hexDigitsFail txt) ∧
    (∀ i : Fin 12, stageDigits (stageLoad txt) (i.castLE (by decide)) = digitsOf txt i) ∧
    (∀ k : Fin 6, stageCompact nonhex (stageDigits (stageLoad txt)) (k.castLE (by decide)) =
      octetsOf nonhex txt k) ∧
    parseByStages nonhex txt len vd vh delim = parseText nonhex txt len vd vh delim

/-- O25. For every request the stages of FORMAT give the text of the functional rules, and the count 17
(R96, R95). -/
def Obligations.FormatStagesAgree : Prop :=
  ∀ (v : Container) (delim : Byte) (uc : Bool), formatByStages v delim uc = (formatText v delim uc, 17)

/-- O26. `NONHEX_OCTET_ref` is what the stage formula computes when it is applied to every byte, and on hex
characters it is the exact octet: so it is one legal choice of the open parameter, and no more (R71). -/
def Obligations.ReferenceOctetIsTheStageFormula : Prop :=
  ∀ (h : Lanes 16) (k : Fin 6),
    (stagePair (nibbleFormula h) (k.castLE (by decide))).setWidth 8 =
      nonhexOctetRef (h ⟨2 * k, by omega⟩) (h ⟨2 * k + 1, by omega⟩) ∧
    octetOfDigits nonhexOctetRef (h ⟨2 * k, by omega⟩) (h ⟨2 * k + 1, by omega⟩) =
      nonhexOctetRef (h ⟨2 * k, by omega⟩) (h ⟨2 * k + 1, by omega⟩)

/-! ## Laws of the two operations together -/

/-- O27. Round trip (R97): PARSE of what FORMAT writes gives `V[47:0]` back, for every value, delimiter and
case, whatever lies past the text, with any validation switches and the same `DELIM`, and with `VD` = 0
any `DELIM`. -/
def Obligations.RoundTrip : Prop :=
  ∀ (nonhex : Byte → Byte → Byte) (v : Container) (delim : Byte) (uc : Bool) (txt : TextIn) (len : Nat)
    (vh : Bool), 17 ≤ len →
    (∀ i : Fin 17, txt (i.castLE (by decide)) = formatText v delim uc i) →
    (∀ vd, parseText nonhex txt len vd vh delim = .present (v.extractLsb' 0 48)) ∧
    (∀ delim', parseText nonhex txt len false vh delim' = .present (v.extractLsb' 0 48)) ∧
    (v.toNat < 2 ^ 48 → (v.extractLsb' 0 48).toNat = v.toNat)

/-- O28. The reverse round trip (R103 (e)): a text that PARSE accepts with both validations on is what
FORMAT writes of its value, but for the case of letters; and exactly it, when its letters stand in the
case FORMAT uses. -/
def Obligations.ReverseRoundTrip : Prop :=
  ∀ (nonhex : Byte → Byte → Byte) (txt : TextIn) (len : Nat) (delim : Byte) (v : MacValue) (uc : Bool),
    parseText nonhex txt len true true delim = .present v →
    (∀ i : Fin 12, formatText (v.setWidth 64) delim uc (digitPos i) = inCase uc (digitsOf txt i)) ∧
    (∀ j : Fin 5, formatText (v.setWidth 64) delim uc (delimPos j) = delimsOf txt j) ∧
    ((∀ i : Fin 12, inCase uc (digitsOf txt i) = digitsOf txt i) →
      ∀ i : Fin 17, formatText (v.setWidth 64) delim uc i = txt (i.castLE (by decide)))

/-- O29. Every legal FORMAT command answers OK and exactly 17 bytes (R98, R86). -/
def Obligations.OutputLength : Prop :=
  ∀ (w : Command) (uc : Bool) (delim : Byte) (data : Payload), decode w = .legal (.format uc delim) →
    (respond { cmd := w, data := data }).status = .ok ∧
    (respond { cmd := w, data := data }).count = 17 ∧
    (List.ofFn (formatText (containerOf data) delim uc)).length = 17

/-- O30. Case and masking (R102): PARSE does not see the case of a letter in a digit position; FORMAT does
not see bits 63:48; its two tables differ exactly at nibbles 10 to 15, and PARSE reads both back alike.
A letter beside a non-hex byte is left out: there the octet is `NONHEX_OCTET` of the two bytes as they
came (R71 (c)), and nothing is known of it (assumption log 1). -/
def Obligations.CaseAndMasking : Prop :=
  (∀ (nonhex : Byte → Byte → Byte) (txt txt' : TextIn) (len : Nat) (vd vh : Bool) (delim : Byte),
    (∀ j : Fin 5, delimsOf txt' j = delimsOf txt j) →
    (∀ i : Fin 12, sameButForCase (digitsOf txt' i) (digitsOf txt i)) →
    (∀ k : Fin 6, (highDigit (digitsOf txt') k = highDigit (digitsOf txt) k ∧
        lowDigit (digitsOf txt') k = lowDigit (digitsOf txt) k) ∨
      (isHex (highDigit (digitsOf txt) k) = true ∧ isHex (lowDigit (digitsOf txt) k) = true)) →
    parseText nonhex txt' len vd vh delim = parseText nonhex txt len vd vh delim) ∧
  (∀ (v : Container) (delim : Byte) (uc : Bool),
    formatText ((v.extractLsb' 0 48).setWidth 64) delim uc = formatText v delim uc) ∧
  (∀ n : BitVec 4, hexChar true n ≠ hexChar false n ↔ 10 ≤ n.toNat) ∧
  (∀ n : BitVec 4, hexValue (hexChar true n) = hexValue (hexChar false n))

/-- O31. What PARSE does not look at (R103 (b), R35): requests that agree on the command word but for `UC`
and the value of a `LEN` of 17 or more, and on the bytes the operation reads, have equal results. -/
def Obligations.ParseReadsNothingElse : Prop :=
  ∀ (nonhex : Byte → Byte → Byte) (txt txt' : TextIn) (len len' : Nat) (vd vh : Bool) (delim : Byte),
    (17 ≤ len → 17 ≤ len' → (∀ i : Fin 17, txt' (i.castLE (by decide)) = txt (i.castLE (by decide))) →
      parseText nonhex txt' len' vd vh delim = parseText nonhex txt len vd vh delim) ∧
    ((∀ i : Fin 12, digitsOf txt' i = digitsOf txt i) →
      parseText nonhex txt' len false vh delim = parseText nonhex txt len false vh delim)

/-- O32. For fixed `DELIM` and `UC`, different 48-bit values give different texts (R103 (d)). -/
def Obligations.FormatIsInjective : Prop :=
  ∀ (delim : Byte) (uc : Bool) (v v' : MacValue),
    formatText (v.setWidth 64) delim uc = formatText (v'.setWidth 64) delim uc → v = v'

/-- O33. Switching a validation off keeps a present result and its value (R103 (f)). -/
def Obligations.ValidationOnlyRefuses : Prop :=
  ∀ (nonhex : Byte → Byte → Byte) (txt : TextIn) (len : Nat) (vd vh vd' vh' : Bool) (delim : Byte)
    (v : MacValue), parseText nonhex txt len vd vh delim = .present v →
    (vd' = true → vd = true) → (vh' = true → vh = true) →
    parseText nonhex txt len vd' vh' delim = .present v

/-- O34. The count field (R51): 17 in the response to a legal FORMAT and 0 in every other. -/
def Obligations.CountField : Prop :=
  ∀ r : Request, (respond r).count =
    match decode r.cmd with
    | .legal (.format _ _) => 17
    | .legal (.parse _ _ _ _) => 0
    | .illegal _ => 0

/-- O35. The data field (R52): the 17 bytes of FORMAT; the value of a present PARSE in bits 47:0 and zero
above; all zero when the status is not OK. -/
def Obligations.DataField : Prop :=
  ∀ r : Request,
    (∀ uc delim, decode r.cmd = .legal (.format uc delim) → ∀ i : Fin 17,
      lane (respond r).data i = formatText (r.data.extractLsb' 0 64) delim uc i) ∧
    (∀ len vd vh delim v, decode r.cmd = .legal (.parse len vd vh delim) →
      parseText Config.nonhexOctet (fun i => lane r.data i) len vd vh delim = .present v →
      (respond r).data.extractLsb' 0 48 = v ∧ (respond r).data.extractLsb' 48 16 = 0 ∧
        (respond r).data.extractLsb' 64 72 = 0) ∧
    ((respond r).status ≠ .ok → (respond r).data = 0)

/-- O36. Examples of the source (95_test_vectors.md S1 to S5), as lines of the assembler. -/
def Obligations.SourceExamples : Prop :=
  (["PARSE len=17 ; txt \"aa:bb:cc:dd:ee:ff\"", "PARSE len=17 ; txt \"AA:BB:CC:DD:EE:FF\"",
    "PARSE len=17, delim='-' ; txt \"01-23-45-67-89-AB\"", "FORMAT ; val 0xFFFFAABBCCDDEEFF",
    "FORMAT delim='-' ; val 0x0123456789AB", "FORMAT uc=0 ; val 0xFEDCBA987654", "FORMAT ; val 0"].map
      fun line => (assembleText line.toList).map respond) =
    [some ⟨.ok, 0, 0xAABBCCDDEEFF⟩, some ⟨.ok, 0, 0xAABBCCDDEEFF⟩, some ⟨.ok, 0, 0x0123456789AB⟩,
      some ⟨.ok, 17, 0x46463A45453A44443A43433A42423A4141⟩,
      some ⟨.ok, 17, 0x42412D39382D37362D35342D33322D3130⟩,
      some ⟨.ok, 17, 0x34353A36373A38393A61623A63643A6566⟩,
      some ⟨.ok, 17, 0x30303A30303A30303A30303A30303A3030⟩]

/-! ## The assembler -/

/-- O37. What a line assembles to (R55): a legal command with the options written and the documented
defaults for those omitted, the ignored fields 0; `WORD` emits its number unchanged. An omitted `len` is
the number of characters, at most 255, for `txt` and 32 for `hex`. The payload: lane `i` is code or byte
`i`, lane 0 first, and 0x00 past the end; or the number of `val` in the low 64 bits and 0 above. That a
string of more than 32 characters keeps its first 32, and one of more than 255 the length 255, is
assumption log 9. -/
def Obligations.AssemblerDefaults : Prop :=
  ∀ (line : AsmLine) (r : Request), assemble line = some r →
    (∀ len opts text, line = .parse len opts text →
      decode r.cmd = .legal (.parse
        (len.getD (match text with | .txt codes => min codes.length 255 | .hex _ => 32))
        (opts.vd.getD false) (opts.vh.getD false) (BitVec.ofNat 8 (opts.delim.getD 0x3A))) ∧
      r.cmd.getLsbD 10 = false) ∧
    (∀ opts text, line = .parse32 opts text →
      decode r.cmd = .legal (.parse 32 (opts.vd.getD false) (opts.vh.getD false)
        (BitVec.ofNat 8 (opts.delim.getD 0x3A))) ∧ r.cmd.getLsbD 10 = false) ∧
    (∀ uc delim value, line = .format uc delim value →
      decode r.cmd = .legal (.format (uc.getD true) (BitVec.ofNat 8 (delim.getD 0x3A))) ∧
      r.cmd.extractLsb' 16 8 = 0 ∧ r.cmd.extractLsb' 8 2 = 0 ∧ r.data.toNat = value ∧ value < 2 ^ 64) ∧
    (∀ number payload, line = .word number payload → r.cmd.toNat = number) ∧
    (∀ text, ((∃ len opts, line = .parse len opts text) ∨ (∃ opts, line = .parse32 opts text) ∨
        ∃ number, line = .word number (.text text)) →
      (∀ codes, text = .txt codes → lanesHold r.data codes) ∧
      (∀ bytes, text = .hex bytes → bytes.length = 32 ∧ lanesHold r.data bytes)) ∧
    (∀ number value, line = .word number (.val value) → r.data.toNat = value ∧ value < 2 ^ 64)

/-- O38. `PARSE32` is PARSE with `LEN` = 32, and never fails with `TooShort` (R56). -/
def Obligations.ParseThirtyTwo : Prop :=
  ∀ (opts : ParseOptions) (text : TextPayload),
    assemble (.parse32 opts text) = assemble (.parse (some 32) opts text) ∧
    ∀ r, assemble (.parse32 opts text) = some r → requestCause r ≠ some .tooShort

/-! ## The unit: Accept, Deliver, reset, ports -/

/-- O39. Reset leaves the queue empty, `req_ready` 1, `rsp_valid` 0 and the response fields 0 (R26). -/
def Obligations.ResetValues : Prop :=
  State.reset.queue = [] ∧
  outPins State.reset = { reqReady := true, rspValid := false, rspStatus := 0, rspCount := 0, rspData := 0 }

/-- O40. An edge with `rst` = 1 (R120): the reset state of R26, no Accept and no Deliver, and the next edge
finds the unit ready. The requests in the queue get no response (R122). -/
def Obligations.ResetEdge : Prop :=
  ∀ s : State, (nextInput s).rst = true →
    ∃ t, step s = .next t ∧ t.queue = [] ∧ t.delivered = s.delivered ∧
      outPins t = { reqReady := true, rspValid := false, rspStatus := 0, rspCount := 0, rspData := 0 }

/-- O41. While a response is valid and not taken, the unit holds the response fields (R25). -/
def Obligations.ResponseIsHeld : Prop :=
  ∀ s t : State, (outPins s).rspValid = true → (nextInput s).rspReady = false →
    (nextInput s).rst = false → step s = .next t →
    (outPins t).rspValid = true ∧ (outPins t).rspStatus = (outPins s).rspStatus ∧
      (outPins t).rspCount = (outPins s).rspCount ∧ (outPins t).rspData = (outPins s).rspData

/-- O42. The output ports (R25, R50): while `rsp_valid` is 0 the response fields are zero; while it is 1 they
are `Exec` of the oldest request; status 3 never appears. That `req_ready` is 1 exactly when the queue
has room before the edge, whatever is delivered on it, is the model's reading: assumption log 3. -/
def Obligations.PortsShowTheOldestRequest : Prop :=
  ∀ s : State,
    ((outPins s).reqReady = true ↔ s.queue.length < Config.depth) ∧
    ((outPins s).rspValid = false →
      (outPins s).rspStatus = 0 ∧ (outPins s).rspCount = 0 ∧ (outPins s).rspData = 0) ∧
    ((outPins s).rspValid = true → ∃ e rest, s.queue = e :: rest ∧
      (outPins s).rspStatus = statusCode (respond e.req).status ∧
      (outPins s).rspCount = (respond e.req).count ∧ (outPins s).rspData = (respond e.req).data) ∧
    (outPins s).rspStatus ≠ 3

/-- O43. What one edge without reset does to the whole state (R16, R25). The response port delivers exactly
when `rsp_valid` and `rsp_ready` are 1; the request port accepts exactly when `req_valid` and `req_ready`
are 1. A request held stable is captured as it stands; for one that was not, the capture is a free value
(R124, assumption log 4), and an edge without Accept records what became of the request on the port
(log 4). Every wait counts down by one, and a new one is the input's (log 2). That `req_ready` is read
before the edge, so that a full queue does not accept while it delivers, is log 3; that one edge may hold
a Deliver and an Accept is log 12. -/
def Obligations.EdgeEffect : Prop :=
  ∀ s t : State, (nextInput s).rst = false → step s = .next t →
    t.stimulus = s.stimulus.tail ∧
    t.delivered = s.delivered ++
      (if rspValid s && (nextInput s).rspReady then (s.requests.take 1).map respond else []) ∧
    ((nextInput s).reqValid = true → s.queue.length < Config.depth →
      ∃ r, t.queue = keptQueue s ++ [{ req := r, wait := (nextInput s).unitWait }] ∧ t.presented = .idle ∧
        (heldStable s.presented (pinsRequest (nextInput s)) = true →
          r = { cmd := (nextInput s).reqCmd, data := (nextInput s).reqData } ∧
          t.unstableCount = s.unstableCount) ∧
        (heldStable s.presented (pinsRequest (nextInput s)) = false →
          r = { cmd := Config.unstableCmd s.unstableCount, data := Config.unstableData s.unstableCount } ∧
          t.unstableCount = s.unstableCount + 1)) ∧
    (¬ ((nextInput s).reqValid = true ∧ s.queue.length < Config.depth) →
      t.queue = keptQueue s ∧ t.unstableCount = s.unstableCount ∧
      (s.presented = .idle →
        t.presented = if (nextInput s).reqValid then .steady (pinsRequest (nextInput s)) else .idle) ∧
      (∀ r, s.presented = .steady r →
        t.presented = if r = pinsRequest (nextInput s) then .steady r else .changed) ∧
      (s.presented = .changed → t.presented = .changed))

/-- O44. A requester that presents one request and holds it has that request captured at its Accept, however
many edges it waited (R25, R124). -/
def Obligations.HeldRequestIsCaptured : Prop :=
  ∀ (k : Nat) (s : State) (r : Request), s.presented = .idle ∨ s.presented = .steady r →
    k < s.stimulus.length →
    (∀ pins ∈ s.stimulus.take (k + 1), pins.rst = false ∧ pins.reqValid = true ∧ pinsRequest pins = r) →
    acceptedIn k s = [] → acceptedNow (afterSteps k s) ≠ [] →
    acceptedNow (afterSteps k s) = [r] ∧ (afterSteps k s).unstableCount = s.unstableCount

/-- O45. Every edge without reset is a sequence of steps of R16: at most one Deliver, then at most one Accept,
accepting what the edge accepts and emitting what it delivers. That one edge may hold both is assumption
log 12. -/
def Obligations.EdgeRefinesUnitSteps : Prop :=
  ∀ s t : State, (nextInput s).rst = false → step s = .next t →
    ∃ out ins, out.length ≤ 1 ∧ ins.length ≤ 1 ∧ ins = acceptedNow s ∧
      t.delivered = s.delivered ++ out ∧
      UnitTrace s.requests (out.map UnitAction.deliver ++ ins.map UnitAction.accept) t.requests

/-- O46. Responses come out in the order the requests went in, one per request, none dropped, none
duplicated (R16): over any number of edges without reset, what the machine has answered and still owes
grows by exactly the responses of the requests accepted. -/
def Obligations.ResponsesInRequestOrder : Prop :=
  ∀ (k : Nat) (s : State), noResetFor k s →
    answersOf (afterSteps k s) = answersOf s ++ (acceptedIn k s).map respond

/-- O47. The outcome of a run that has ended (R127): presented after reset and with the queue empty again, the
responses delivered are `Exec(r_1) .. Exec(r_n)` of the requests accepted. -/
def Obligations.OutcomeOfARun : Prop :=
  ∀ (k : Nat) (inputs : List EdgeInput), noResetFor k { State.reset with stimulus := inputs } →
    (afterSteps k { State.reset with stimulus := inputs }).queue = [] →
    (afterSteps k { State.reset with stimulus := inputs }).delivered =
      (acceptedIn k { State.reset with stimulus := inputs }).map respond

/-- O48. Any interleaving of threads' requests gives each thread exactly the responses it would get alone
(R39 (c)): whoever owns the accepted requests of an ended run, the responses at an owner's places are
`Exec` of that owner's requests, in order. -/
def Obligations.ThreadsGetTheirOwnAnswers : Prop :=
  ∀ (k : Nat) (inputs : List EdgeInput) (owners : List Nat) (thread : Nat),
    noResetFor k { State.reset with stimulus := inputs } →
    (afterSteps k { State.reset with stimulus := inputs }).queue = [] →
    owners.length = (acceptedIn k { State.reset with stimulus := inputs }).length →
    ((owners.zip (afterSteps k { State.reset with stimulus := inputs }).delivered).filter
        fun p => p.1 == thread).map Prod.snd =
      (((owners.zip (acceptedIn k { State.reset with stimulus := inputs })).filter
        fun p => p.1 == thread).map Prod.snd).map respond

/-- O49. A response is a function of its request alone (R14): two machines, whatever their histories, their
other requests and their ports, that deliver the same request emit the same response. -/
def Obligations.ResponseIsAFunctionOfTheRequest : Prop :=
  ∀ (s s' t t' : State) (e e' : Entry) (rest rest' : List Entry),
    s.queue = e :: rest → s'.queue = e' :: rest' → e.req = e'.req → e.wait = 0 → e'.wait = 0 →
    (nextInput s).rst = false → (nextInput s').rst = false →
    (nextInput s).rspReady = true → (nextInput s').rspReady = true →
    step s = .next t → step s' = .next t' →
    ∃ rsp, t.delivered = s.delivered ++ [rsp] ∧ t'.delivered = s'.delivered ++ [rsp]

/-- O50. Which latency a command has (R126): `LAT_FORMAT` for every FORMAT, `LAT_PARSE` for every PARSE and
every illegal command, whatever the other fields. -/
def Obligations.LatencyOfACommand : Prop :=
  ∀ w : Command, latency w =
    if rowMatches rowFormat w then Config.latFormat else Config.latParse

/-- O51. The response of a request that draws its latency (R126) and is accepted into an empty queue is first
presented exactly that latency after the Accept, by the model's count of edges (assumption log 2). -/
def Obligations.LatencyIsExact : Prop :=
  ∀ (s : State) (k : Nat), s.queue = [] → (nextInput s).reqValid = true → noResetFor (k + 1) s →
    keepsLatency s → k ≤ latency (captured s (nextInput s)).cmd →
    (rspValid (afterSteps (k + 1) s) = true ↔ k = latency (captured s (nextInput s)).cmd)

/-- O52. While the requester stays willing, the oldest request is delivered within its wait and one edge
(R16, the bounded form of its fairness), and only it. The count of edges is the model's, assumption log
2. -/
def Obligations.OldestIsDelivered : Prop :=
  ∀ (s : State) (e : Entry) (rest : List Entry), s.queue = e :: rest → noResetFor (e.wait + 1) s →
    takesFor (e.wait + 1) s →
    (afterSteps (e.wait + 1) s).delivered = s.delivered ++ [respond e.req]

/-- O53. Every edge keeps a good state good: at most `DEPTH` requests, every response taken one the unit may
give. -/
def Obligations.GoodIsKept : Prop :=
  ∀ s t : State, s.Good → step s = .next t → t.Good

/-- O54. The machine right after reset is good, and no request in it waits longer than its latency. -/
def Obligations.GoodAtReset : Prop := State.reset.Good ∧ State.reset.InTime

/-- O55. What an edge with `rst` = 1 does to the model's own fields: the choice of assumption log 14. -/
def Obligations.ResetEdgeOfTheOwnFields : Prop :=
  ∀ s t : State, (nextInput s).rst = true → step s = .next t →
    t.presented = .idle ∧ t.unstableCount = s.unstableCount ∧ t.stimulus = s.stimulus.tail

/-- O56. While accepted requests draw their latencies (R126), no request in the queue waits longer than its
latency, whatever the edge does. The count of edges is the model's, assumption log 2. -/
def Obligations.InTimeIsKept : Prop :=
  ∀ s t : State, s.InTime → keepsLatency s → step s = .next t → t.InTime

/-- O57. A request that was changed between its presentation and its Accept is captured as a free value (R124:
"the request the unit captures is undefined"), also when it stands unchanged again by then, and also when
it was withdrawn in between. What counts as changed is assumption log 4. -/
def Obligations.ChangedRequestIsFree : Prop :=
  ∀ (k : Nat) (s : State) (r : Request), s.presented = .steady r → noResetFor k s →
    (∃ pins ∈ s.stimulus.take (k + 1), pinsRequest pins ≠ r) →
    acceptedIn k s = [] → acceptedNow (afterSteps k s) ≠ [] →
    acceptedNow (afterSteps k s) =
      [{ cmd := Config.unstableCmd s.unstableCount, data := Config.unstableData s.unstableCount }]
end

