-- ==== Sys2Proof/Laws/Characters.lean ====
section
/-! SUPPORT. Facts about the hex characters, each over all bytes or all nibbles. -/

namespace Sys2Proof.Machine

/-- Both tables hold hex characters only. -/
theorem isHex_hexChar : ∀ (uc : Bool) (n : BitVec 4), isHex (hexChar uc n) = true := by decide

/-- Reading back an entry of either table gives its index. -/
theorem hexValue_hexChar : ∀ (uc : Bool) (n : BitVec 4), hexValue (hexChar uc n) = n.toNat := by decide

/-- A hex character's value is a nibble. -/
theorem hexValue_lt : ∀ b : Byte, isHex b = true → hexValue b < 16 := by decide +kernel

/-- A byte is its two nibbles. -/
theorem nibbles_toNat (b : Byte) : 16 * (highNibble b).toNat + (lowNibble b).toNat = b.toNat := by
  have h := b.isLt
  simp only [highNibble, lowNibble, BitVec.extractLsb'_toNat, Nat.shiftRight_eq_div_pow]
  omega

/-- The octet of the two characters of an octet is the octet. -/
theorem octetOfDigits_hexChar (nonhex : Byte → Byte → Byte) (uc : Bool) (b : Byte) :
    octetOfDigits nonhex (hexChar uc (highNibble b)) (hexChar uc (lowNibble b)) = b := by
  simp only [octetOfDigits, isHex_hexChar, hexValue_hexChar, nibbles_toNat, Bool.and_self, if_true,
    BitVec.ofNat_toNat, BitVec.setWidth_eq]

end Sys2Proof.Machine
end

