-- ==== Sys2Proof/Laws/Decode.lean ====
section
/-! SUPPORT. The fields of a packed command word, and everything decoding can answer. -/

namespace Sys2Proof

section
variable (opc len : BitVec 8) (rsvd : BitVec 5) (uc vh vd : Bool) (delim : Byte)

@[simp] theorem fieldOpc_packCommand : fieldOpc (packCommand opc len rsvd uc vh vd delim) = opc := by
  apply BitVec.eq_of_getLsbD_eq
  intro j hj
  simp only [fieldOpc, packCommand, BitVec.getLsbD_extractLsb', BitVec.getLsbD_append, hj, decide_true,
    Bool.true_and]
  interval_cases j <;> rfl

@[simp] theorem fieldLen_packCommand :
    fieldLen (packCommand opc len rsvd uc vh vd delim) = len.toNat := by
  unfold fieldLen
  congr 1
  apply BitVec.eq_of_getLsbD_eq
  intro j hj
  simp only [packCommand, BitVec.getLsbD_extractLsb', BitVec.getLsbD_append, hj, decide_true,
    Bool.true_and]
  interval_cases j <;> rfl

@[simp] theorem fieldRsvd_packCommand : fieldRsvd (packCommand opc len rsvd uc vh vd delim) = rsvd := by
  apply BitVec.eq_of_getLsbD_eq
  intro j hj
  simp only [fieldRsvd, packCommand, BitVec.getLsbD_extractLsb', BitVec.getLsbD_append, hj, decide_true,
    Bool.true_and]
  interval_cases j <;> rfl

@[simp] theorem fieldDelim_packCommand : fieldDelim (packCommand opc len rsvd uc vh vd delim) = delim := by
  apply BitVec.eq_of_getLsbD_eq
  intro j hj
  simp only [fieldDelim, packCommand, BitVec.getLsbD_extractLsb', BitVec.getLsbD_append, hj, decide_true,
    Bool.true_and]
  interval_cases j <;> rfl

@[simp] theorem fieldUc_packCommand : fieldUc (packCommand opc len rsvd uc vh vd delim) = uc := by
  unfold fieldUc packCommand
  simp only [BitVec.getLsbD_append]
  cases uc <;> rfl

@[simp] theorem fieldVh_packCommand : fieldVh (packCommand opc len rsvd uc vh vd delim) = vh := by
  unfold fieldVh packCommand
  simp only [BitVec.getLsbD_append]
  cases vh <;> rfl

@[simp] theorem fieldVd_packCommand : fieldVd (packCommand opc len rsvd uc vh vd delim) = vd := by
  unfold fieldVd packCommand
  simp only [BitVec.getLsbD_append]
  cases vd <;> rfl

end

/-- Every word is a PARSE, a FORMAT or illegal, and which of them its reserved bits and its opcode say. -/
theorem decode_cases (cmd : Command) :
    (fieldRsvd cmd = 0#5 ∧ fieldOpc cmd = opcParse ∧
      decode cmd = .legal (.parse (fieldLen cmd) (fieldVd cmd) (fieldVh cmd) (fieldDelim cmd))) ∨
    (fieldRsvd cmd = 0#5 ∧ fieldOpc cmd = opcFormat ∧
      decode cmd = .legal (.format (fieldUc cmd) (fieldDelim cmd))) ∨
    ((fieldRsvd cmd ≠ 0#5 ∨ (fieldOpc cmd ≠ opcParse ∧ fieldOpc cmd ≠ opcFormat)) ∧
      ∃ why, decode cmd = .illegal why) := by
  unfold decode
  split
  · rename_i hr
    exact .inr (.inr ⟨.inl hr, _, rfl⟩)
  · rename_i hr
    replace hr : fieldRsvd cmd = 0#5 := by simpa using hr
    split
    · rename_i ho
      exact .inl ⟨hr, ho, rfl⟩
    · rename_i ho
      split
      · rename_i hf
        exact .inr (.inl ⟨hr, hf, rfl⟩)
      · rename_i hf
        exact .inr (.inr ⟨.inr ⟨ho, hf⟩, _, rfl⟩)

end Sys2Proof
end

