-- ==== Sys2Proof/Laws/State.lean ====
section
/-! SUPPORT. What each operation over the state does to each field: one lemma per field per update. -/

namespace Sys2Proof.Machine

/-! ## takeInput -/
@[simp] theorem takeInput_queue (s : State) : (takeInput s).queue = s.queue := rfl
@[simp] theorem takeInput_presented (s : State) : (takeInput s).presented = s.presented := rfl
@[simp] theorem takeInput_unstableCount (s : State) : (takeInput s).unstableCount = s.unstableCount := rfl
@[simp] theorem takeInput_stimulus (s : State) : (takeInput s).stimulus = s.stimulus.tail := rfl
@[simp] theorem takeInput_delivered (s : State) : (takeInput s).delivered = s.delivered := rfl

/-! ## tick -/
@[simp] theorem tick_queue (s : State) :
    (tick s).queue = s.queue.map fun e => { e with wait := e.wait - 1 } := rfl
@[simp] theorem tick_presented (s : State) : (tick s).presented = s.presented := rfl
@[simp] theorem tick_unstableCount (s : State) : (tick s).unstableCount = s.unstableCount := rfl
@[simp] theorem tick_stimulus (s : State) : (tick s).stimulus = s.stimulus := rfl
@[simp] theorem tick_delivered (s : State) : (tick s).delivered = s.delivered := rfl

/-! ## clockReset -/
@[simp] theorem clockReset_queue (s : State) : (clockReset s).queue = [] := rfl
@[simp] theorem clockReset_presented (s : State) : (clockReset s).presented = .idle := rfl
@[simp] theorem clockReset_unstableCount (s : State) : (clockReset s).unstableCount = s.unstableCount := rfl
@[simp] theorem clockReset_stimulus (s : State) : (clockReset s).stimulus = s.stimulus := rfl
@[simp] theorem clockReset_delivered (s : State) : (clockReset s).delivered = s.delivered := rfl

/-! ## accept -/
@[simp] theorem accept_queue (r : Request) (wait : Nat) (s : State) :
    (accept r wait s).queue = s.queue ++ [{ req := r, wait := wait }] := rfl
@[simp] theorem accept_presented (r : Request) (wait : Nat) (s : State) : (accept r wait s).presented = s.presented := rfl
@[simp] theorem accept_unstableCount (r : Request) (wait : Nat) (s : State) :
    (accept r wait s).unstableCount = s.unstableCount := rfl
@[simp] theorem accept_stimulus (r : Request) (wait : Nat) (s : State) : (accept r wait s).stimulus = s.stimulus := rfl
@[simp] theorem accept_delivered (r : Request) (wait : Nat) (s : State) : (accept r wait s).delivered = s.delivered := rfl

/-! ## deliver -/

/-- With no request, Deliver changes nothing. -/
theorem deliver_of_empty {answer : Payload → Response} {s : State} (h : s.queue = []) :
    deliver answer s = s := by
  unfold deliver; rw [h]

/-- With a request, Deliver takes it off the queue and emits its answer, and that is all. -/
theorem deliver_of_cons {answer : Payload → Response} {s : State} {e : Entry} {rest : List Entry}
    (h : s.queue = e :: rest) :
    deliver answer s =
      { s with queue := rest, delivered := s.delivered ++ [answer e.req.data] } := by
  unfold deliver; rw [h]

@[simp] theorem deliver_presented (answer : Payload → Response) (s : State) :
    (deliver answer s).presented = s.presented := by
  unfold deliver; split <;> rfl
@[simp] theorem deliver_unstableCount (answer : Payload → Response) (s : State) :
    (deliver answer s).unstableCount = s.unstableCount := by
  unfold deliver; split <;> rfl
@[simp] theorem deliver_stimulus (answer : Payload → Response) (s : State) :
    (deliver answer s).stimulus = s.stimulus := by
  unfold deliver; split <;> rfl
@[simp] theorem deliver_queue (answer : Payload → Response) (s : State) :
    (deliver answer s).queue = s.queue.tail := by
  unfold deliver; split <;> simp_all

/-! ## requestPhase -/

/-- An edge with Accept: the captured request joins the queue, and the port is free again. -/
theorem requestPhase_accepts {pins : EdgeInput} {ready : Bool} {s : State}
    (h : (pins.reqValid && ready) = true) :
    requestPhase pins ready s =
      { accept (captured s pins) pins.unitWait s with
        presented := .idle
        unstableCount :=
          if heldStable s.presented (pinsRequest pins) then s.unstableCount
          else s.unstableCount + 1 } := by
  unfold requestPhase; rw [if_pos h]

/-- An edge without Accept: only what is known of the port changes. -/
theorem requestPhase_waits {pins : EdgeInput} {ready : Bool} {s : State}
    (h : (pins.reqValid && ready) = false) :
    requestPhase pins ready s = { s with presented := observe s.presented pins } := by
  unfold requestPhase; rw [if_neg (by simp [h])]

@[simp] theorem requestPhase_delivered (pins : EdgeInput) (ready : Bool) (s : State) :
    (requestPhase pins ready s).delivered = s.delivered := by
  unfold requestPhase; split <;> rfl
@[simp] theorem requestPhase_stimulus (pins : EdgeInput) (ready : Bool) (s : State) :
    (requestPhase pins ready s).stimulus = s.stimulus := by
  unfold requestPhase; split <;> rfl

/-! ## willTakeResponse and placeCommand -/
@[simp] theorem willTakeResponse_queue (s : State) : (willTakeResponse s).queue = s.queue := rfl
@[simp] theorem willTakeResponse_presented (s : State) :
    (willTakeResponse s).presented = s.presented := rfl
@[simp] theorem willTakeResponse_unstableCount (s : State) :
    (willTakeResponse s).unstableCount = s.unstableCount := rfl
@[simp] theorem willTakeResponse_delivered (s : State) :
    (willTakeResponse s).delivered = s.delivered := rfl
@[simp] theorem placeCommand_presented (cmd : Command) (s : State) :
    (placeCommand cmd s).presented = s.presented := by
  unfold placeCommand; split <;> rfl
@[simp] theorem placeCommand_unstableCount (cmd : Command) (s : State) :
    (placeCommand cmd s).unstableCount = s.unstableCount := by
  unfold placeCommand; split <;> rfl
@[simp] theorem placeCommand_stimulus (cmd : Command) (s : State) :
    (placeCommand cmd s).stimulus = s.stimulus := by
  unfold placeCommand; split <;> rfl
@[simp] theorem placeCommand_delivered (cmd : Command) (s : State) :
    (placeCommand cmd s).delivered = s.delivered := by
  unfold placeCommand; split <;> rfl

end Sys2Proof.Machine
end

