-- ==== Sys2Proof/Laws/Edge.lean ====
section
/-! SUPPORT. What a clock edge can do, said once: the answer of the oldest request, the response port, and
the inversion lemma of a step. -/

namespace Sys2Proof.Machine

/-- The oldest request's answer is `Exec` of it (30_encoding.md R57), and nothing else changes. -/
theorem answerHead_of_cons {s : State} {e : Entry} {rest : List Entry} (h : s.queue = e :: rest) :
    answerHead s = .next { s with queue := rest, delivered := s.delivered ++ [respond e.req] } := by
  simp only [answerHead, h]
  cases hd : decode e.req.cmd with
  | legal i =>
    cases i <;> simp [exec, execParse, execFormat, deliver_of_cons h, respond, hd]
  | illegal why => simp [deliver_of_cons h, respond, hd]

/-- With no request there is nothing to answer. -/
theorem answerHead_of_empty {s : State} (h : s.queue = []) : answerHead s = .next s := by
  simp only [answerHead, h]

/-- The response port without a handshake. -/
theorem responsePhase_holds {pins : EdgeInput} {valid : Bool} {s : State}
    (h : (valid && pins.rspReady) = false) : responsePhase pins valid s = .next s := by
  unfold responsePhase; rw [if_neg (by simp [h])]

/-- The response port with a handshake. -/
theorem responsePhase_answers {pins : EdgeInput} {valid : Bool} {s : State}
    (h : (valid && pins.rspReady) = true) : responsePhase pins valid s = answerHead s := by
  unfold responsePhase; rw [if_pos h]

@[simp] theorem afterNext_next (s : State) (f : State → State) : afterNext (.next s) f = .next (f s) := rfl

/-- A response is valid only if there is a request, and then the oldest one's wait is over. -/
theorem rspValid_iff (s : State) : rspValid s = true ↔ ∃ e rest, s.queue = e :: rest ∧ e.wait = 0 := by
  unfold rspValid
  split <;> simp_all

/-- Everything one edge can do to the state: a reset; nothing at the response port; or the oldest request
answered; and in the last two cases the request port's part. -/
theorem step_cases {s t : State} (h : step s = .next t) :
    ((nextInput s).rst = true ∧ t = clockReset (takeInput s)) ∨
    ((nextInput s).rst = false ∧ (rspValid s && (nextInput s).rspReady) = false ∧
      t = requestPhase (nextInput s) (reqReady s) (tick (takeInput s))) ∨
    ((nextInput s).rst = false ∧ ∃ e rest, s.queue = e :: rest ∧ e.wait = 0 ∧
      (nextInput s).rspReady = true ∧
      t = requestPhase (nextInput s) (reqReady s)
        { tick (takeInput s) with
          queue := rest.map fun x => { x with wait := x.wait - 1 }
          delivered := s.delivered ++ [respond e.req] }) := by
  unfold step clockEdge at h
  split at h
  · rename_i hr
    exact .inl ⟨hr, by injection h with h; exact h.symm⟩
  · rename_i hr
    replace hr : (nextInput s).rst = false := by simpa using hr
    cases hv : (rspValid s && (nextInput s).rspReady) with
    | false =>
      rw [responsePhase_holds hv, afterNext_next] at h
      exact .inr (.inl ⟨hr, rfl, by injection h with h; exact h.symm⟩)
    | true =>
      obtain ⟨hv, hready⟩ := Bool.and_eq_true_iff.mp hv
      obtain ⟨e, rest, hq, hw⟩ := (rspValid_iff s).mp hv
      have hq' : (tick (takeInput s)).queue =
          { e with wait := e.wait - 1 } :: rest.map fun x => { x with wait := x.wait - 1 } := by
        simp [hq]
      rw [responsePhase_answers (by simp [hv, hready]), answerHead_of_cons hq', afterNext_next] at h
      exact .inr (.inr ⟨hr, e, rest, hq, hw, hready, by injection h with h; exact h.symm⟩)

/-- What an edge without reset does, as one equation: the queue and the responses as the response port leaves
them, then the request port's part. -/
theorem step_without_reset {s t : State} (h : step s = .next t) (hr : (nextInput s).rst = false) :
    t = requestPhase (nextInput s) (reqReady s)
      { tick (takeInput s) with
        queue := keptQueue s
        delivered := s.delivered ++
          (if rspValid s && (nextInput s).rspReady then (s.requests.take 1).map respond else []) } := by
  rcases step_cases h with ⟨h, _⟩ | ⟨_, hn, rfl⟩ | ⟨_, e, rest, hq, hw, hy, rfl⟩
  · simp [hr] at h
  · congr 1
    simp [keptQueue, hn, tick, takeInput]
  · have hv : rspValid s = true := (rspValid_iff s).mpr ⟨e, rest, hq, hw⟩
    congr 1
    simp [keptQueue, hv, hy, tick, takeInput, hq, State.requests]

/-- A run of the host's that begins with a next state goes on from it. -/
theorem run_succ {M : Host.Core} {k : Nat} {s t : M.State} (h : M.step s = .next t) :
    M.run (k + 1) s = M.run k t := by
  rw [Host.Core.run, h]

/-- The request port adds what it accepts to the young end of the queue. -/
theorem requestPhase_requests (pins : EdgeInput) (ready : Bool) (s : State) :
    (requestPhase pins ready s).requests =
      s.requests ++ (if pins.reqValid && ready then [captured s pins] else []) := by
  unfold requestPhase
  split <;> simp [State.requests]

/-- The passing of an edge changes no request. -/
@[simp] theorem requests_tick (s : State) : (tick s).requests = s.requests := by
  simp [State.requests, List.map_map, Function.comp_def]

end Sys2Proof.Machine
end

