-- ==== Sys2Proof/Laws/Lanes.lean ====
section
/-! SUPPORT. The byte lanes: reading a lane of a vector built from lanes, and the finite quantifiers. -/

namespace Sys2Proof.Machine

theorem allLanes_iff {n : Nat} (p : Fin n → Bool) : allLanes n p = true ↔ ∀ i, p i = true := by
  induction n with
  | zero => simp [allLanes]
  | succ n ih => rw [allLanes, Bool.and_eq_true, ih, Fin.forall_fin_succ]

theorem anyLane_iff {n : Nat} (p : Fin n → Bool) : anyLane n p = true ↔ ∃ i, p i = true := by
  induction n with
  | zero => simp [anyLane]
  | succ n ih => rw [anyLane, Bool.or_eq_true, ih, Fin.exists_fin_succ]

theorem anyLane_eq_false_iff {n : Nat} (p : Fin n → Bool) :
    anyLane n p = false ↔ ∀ i, p i = false := by
  rw [Bool.eq_false_iff, Ne, anyLane_iff]
  simp

/-- `laneSum` of `n` lanes is a number of `8n` bits. -/
theorem laneSum_lt (n : Nat) (f : Lanes n) : laneSum n f < 2 ^ (8 * n) := by
  induction n with
  | zero => simp [laneSum]
  | succ n ih =>
    have h := ih fun i => f i.succ
    have h0 := (f 0).isLt
    have e : 2 ^ (8 * (n + 1)) = 256 * 2 ^ (8 * n) := by
      rw [Nat.mul_add, Nat.pow_add]; ring
    rw [laneSum, e]
    omega

/-- Digit `i` in base 256 of `laneSum` is lane `i`. -/
theorem laneSum_digit (n : Nat) (f : Lanes n) (i : Fin n) :
    laneSum n f / 2 ^ (8 * i.val) % 256 = (f i).toNat := by
  induction n with
  | zero => exact i.elim0
  | succ n ih =>
    have h0 := (f 0).isLt
    refine Fin.cases ?_ (fun j => ?_) i
    · simp only [laneSum, Fin.val_zero, Nat.mul_zero, Nat.pow_zero, Nat.div_one]
      omega
    · have e : 2 ^ (8 * (j.succ : Fin (n + 1)).val) = 256 * 2 ^ (8 * j.val) := by
        rw [Fin.val_succ, Nat.mul_add, Nat.pow_add]; ring
      rw [e, ← Nat.div_div_eq_div_mul, laneSum]
      have d : ((f 0).toNat + 256 * laneSum n fun i => f i.succ) / 256
          = laneSum n fun i => f i.succ := by omega
      rw [d, ih]

/-- Lane `i` of the vector with lanes `f` is `f i`. -/
@[simp] theorem lane_ofLanes {n : Nat} (f : Lanes n) (i : Fin n) : lane (ofLanes n f) i = f i := by
  apply BitVec.eq_of_toNat_eq
  rw [lane, BitVec.extractLsb'_toNat, ofLanes, BitVec.toNat_ofNat, Nat.mod_eq_of_lt (laneSum_lt n f),
    Nat.shiftRight_eq_div_pow]
  exact laneSum_digit n f i

/-- Bit `j` of lane `i` is bit `8i+j`. -/
theorem getLsbD_lane {w : Nat} (v : BitVec w) (i j : Nat) (h : j < 8) :
    (lane v i).getLsbD j = v.getLsbD (8 * i + j) := by
  rw [lane, BitVec.getLsbD_extractLsb']
  simp [h]

/-- Bit `j` of the vector with lanes `f` is bit `j mod 8` of lane `j div 8`. -/
theorem getLsbD_ofLanes {n : Nat} (f : Lanes n) (j : Nat) (h : j < 8 * n) :
    (ofLanes n f).getLsbD j = (f ⟨j / 8, by omega⟩).getLsbD (j % 8) := by
  have e := getLsbD_lane (ofLanes n f) (j / 8) (j % 8) (by omega)
  rw [Nat.div_add_mod] at e
  rw [← e]
  exact congrArg (fun b : Byte => b.getLsbD (j % 8)) (lane_ofLanes f ⟨j / 8, by omega⟩)

/-- Two vectors of `n` lanes with the same lanes are equal. -/
theorem eq_of_lanes {n : Nat} {a b : BitVec (8 * n)} (h : ∀ i : Fin n, lane a i = lane b i) : a = b := by
  apply BitVec.eq_of_getLsbD_eq
  intro j hj
  have e := congrArg (fun x : Byte => x.getLsbD (j % 8)) (h ⟨j / 8, by omega⟩)
  simp only [getLsbD_lane _ _ _ (Nat.mod_lt j (by decide : 8 > 0)), Nat.div_add_mod] at e
  exact e

/-- Octet `k` of the value of six octets is the `k`-th. -/
@[simp] theorem octetOf_valueOfOctets (oct : Lanes 6) (k : Fin 6) : octetOf (valueOfOctets oct) k = oct k := by
  apply BitVec.eq_of_getLsbD_eq
  intro j hj
  rw [octetOf, BitVec.getLsbD_extractLsb']
  simp only [valueOfOctets, BitVec.getLsbD_append, hj, decide_true, Bool.true_and]
  fin_cases k <;> simp only [] <;> interval_cases j <;> rfl

end Sys2Proof.Machine
end

