-- ==== Sys2Proof/Laws/Parse.lean ====
section
/-! SUPPORT. PARSE: what its tests say, and everything it can answer. -/

namespace Sys2Proof.Machine

theorem delimitersFail_iff (txt : TextIn) (delim : Byte) :
    delimitersFail txt delim = true ↔ ∃ j, delimsOf txt j ≠ delim := by
  rw [delimitersFail, anyLane_iff]; simp

theorem delimitersFail_eq_false_iff (txt : TextIn) (delim : Byte) :
    delimitersFail txt delim = false ↔ ∀ j, delimsOf txt j = delim := by
  rw [delimitersFail, anyLane_eq_false_iff]; simp

theorem hexDigitsFail_iff (txt : TextIn) :
    hexDigitsFail txt = true ↔ ∃ i, isHex (digitsOf txt i) = false := by
  rw [hexDigitsFail, anyLane_iff]; simp

theorem hexDigitsFail_eq_false_iff (txt : TextIn) :
    hexDigitsFail txt = false ↔ ∀ i, isHex (digitsOf txt i) = true := by
  rw [hexDigitsFail, anyLane_eq_false_iff]; simp

/-- When no test that is switched on fails, PARSE answers the value of the octets. -/
theorem parseText_of_passes {nonhex : Byte → Byte → Byte} {txt : TextIn} {len : Nat} {vd vh : Bool}
    {delim : Byte} (hl : 17 ≤ len) (hd : vd = true → ∀ j, delimsOf txt j = delim)
    (hx : vh = true → ∀ i, isHex (digitsOf txt i) = true) :
    parseText nonhex txt len vd vh delim = .present (valueOfOctets (octetsOf nonhex txt)) := by
  have h1 : lengthFails len = false := by simp [lengthFails, hl]
  have h2 : (vd && delimitersFail txt delim) = false := by
    cases vd with
    | false => rfl
    | true => simpa using (delimitersFail_eq_false_iff txt delim).mpr (hd rfl)
  have h3 : (vh && hexDigitsFail txt) = false := by
    cases vh with
    | false => rfl
    | true => simpa using (hexDigitsFail_eq_false_iff txt).mpr (hx rfl)
  simp [parseText, h1, h2, h3]

/-- If PARSE answers a value, no test that is switched on fails, and it is the value of the octets. -/
theorem passes_of_parseText {nonhex : Byte → Byte → Byte} {txt : TextIn} {len : Nat} {vd vh : Bool}
    {delim : Byte} {v : MacValue} (h : parseText nonhex txt len vd vh delim = .present v) :
    17 ≤ len ∧ (vd = true → ∀ j, delimsOf txt j = delim) ∧
      (vh = true → ∀ i, isHex (digitsOf txt i) = true) ∧ v = valueOfOctets (octetsOf nonhex txt) := by
  unfold parseText at h
  split at h
  · cases h
  · rename_i h1
    split at h
    · cases h
    · rename_i h2
      split at h
      · cases h
      · rename_i h3
        refine ⟨by simpa [lengthFails] using h1, ?_, ?_, by injection h with h; exact h.symm⟩
        · intro hv
          rw [← delimitersFail_eq_false_iff]
          simpa [hv] using h2
        · intro hv
          rw [← hexDigitsFail_eq_false_iff]
          simpa [hv] using h3

end Sys2Proof.Machine
end

