-- ==== Sys2Proof/Laws/PerInstr.lean ====
section
/-! SUPPORT. Statements about every instruction, one lemma for each constructor. -/

namespace Sys2Proof.Laws

/-- The opcode of an instruction (30_encoding.md R44). -/
def opcodeOf : Instr → BitVec 8
  | .parse _ _ _ _ => 0x01#8
  | .format _ _ => 0x02#8

/-- The encoder writes the instruction's opcode, and zeros in the reserved bits (R44, R47). -/
def EncodedHead.Statement (i : Instr) : Prop :=
  fieldOpc (encode i) = opcodeOf i ∧ fieldRsvd (encode i) = 0#5

theorem EncodedHead.parse (len : Nat) (vd vh : Bool) (delim : Byte) :
    EncodedHead.Statement (.parse len vd vh delim) := by
  constructor
  · rw [encode, fieldOpc_packCommand]; rfl
  · rw [encode, fieldRsvd_packCommand]

theorem EncodedHead.format (uc : Bool) (delim : Byte) : EncodedHead.Statement (.format uc delim) := by
  constructor
  · rw [encode, fieldOpc_packCommand]; rfl
  · rw [encode, fieldRsvd_packCommand]

end Sys2Proof.Laws
end

