-- ==== Sys2Proof/Tests/Slice0.lean ====
section
/-! SUPPORT. The model's own tests, and for every claim with hypotheses a witness that they can be met. Expected
values are the spec's: each test names the row of 95_test_vectors.md, or the rule, it is taken from. -/

namespace Sys2Proof.Tests

open Sys2Proof.Machine

/-! ## Helpers -/

/-- The request of an assembler line; an all-zero one if the line does not read. -/
def requestOf (line : String) : Request := (assembleText line.toList).getD { cmd := 0, data := 0 }

/-- The requester takes a response and presents nothing. -/
def takePins : EdgeInput :=
  { rst := false, reqValid := false, reqCmd := 0, reqData := 0, rspReady := true, unitWait := 0 }

/-- The requester presents `r` and does not take a response; if accepted, the request draws no wait. -/
def presentPins (r : Request) : EdgeInput :=
  { rst := false, reqValid := true, reqCmd := r.cmd, reqData := r.data, rspReady := false, unitWait := 0 }

/-- The requester resets the unit. -/
def resetPins : EdgeInput :=
  { rst := true, reqValid := true, reqCmd := 0, reqData := 0, rspReady := true, unitWait := 0 }

/-- One request in the queue, its response due after `wait` edges, and the given inputs to come. -/
def stateWith (r : Request) (wait : Nat) (inputs : List EdgeInput) : State :=
  { State.reset with queue := [{ req := r, wait := wait }], stimulus := inputs }

/-- The responses taken after one step. -/
def deliveredAfter (s : State) : List Response :=
  match step s with
  | .next t => t.delivered
  | .fault _ => []
  | .refused _ => []

/-! ## Well-formedness and decoding (30_encoding.md R42 to R58) -/

/-- `LEN` is an 8-bit field (R43). -/
theorem test_wellFormed_refuses_len_256 : (Instr.parse 256 false false 0x3A).wellFormed = false := by decide
theorem test_wellFormed_accepts_len_255 : (Instr.parse 255 true true 0x3A).wellFormed = true := by decide

/-- `PARSE len=17, vd=1, vh=1` = 0x0111033A (R58), bit by bit in the layout of R42. -/
theorem test_decode_parse_word :
    decode 0b00000001000100010000001100111010#32 = .legal (.parse 17 true true 0x3A) := by decide
/-- `VH` is bit 9 and `VD` bit 8 (R43): `PARSE len=17, vh=1` = 0x0111023A (R58). -/
theorem test_decode_parse_vh_only : decode 0x0111023A#32 = .legal (.parse 17 false true 0x3A) := by decide
/-- `UC` is ignored by PARSE: 0x0111073A (95, section 2.6). -/
theorem test_decode_parse_ignores_uc : decode 0x0111073A#32 = .legal (.parse 17 true true 0x3A) := by decide
/-- `FORMAT delim='-'` = 0x0200042D (R58). -/
theorem test_decode_format_word :
    decode 0b00000010000000000000010000101101#32 = .legal (.format true 0x2D) := by decide
/-- `LEN`, `VH`, `VD` are ignored by FORMAT: 0x02FF072D (95, section 2.8). -/
theorem test_decode_format_ignores_fields : decode 0x02FF072D#32 = .legal (.format true 0x2D) := by decide
/-- The illegal words of 95, section 2.9. -/
theorem test_decode_illegal_words :
    ([0x00000000#32, 0x0011033A, 0x0300003A, 0x8100003A, 0xFF00003A, 0xFFFFFFFF, 0x0111083A, 0x0111103A,
      0x0111803A, 0x0200843A, 0x0200FC3A, 0x0110083A].all fun w =>
        match decode w with
        | .illegal _ => true
        | .legal _ => false) = true := by decide
theorem test_decode_of_encode_parse :
    decode (encode (.parse 32 false true 0xFF)) = .legal (.parse 32 false true 0xFF) := by decide
theorem test_decodeTableWord : decodeTableWord 32 0x01FF033A = some (.parse 255 true true 0x3A) := by decide

/-! ## PARSE -/

/-- R60's worked example. -/
theorem test_parse_worked_example :
    respond (requestOf "PARSE len=17, vd=1, vh=1 ; txt \"1a:2B:3c:4D:5e:6F\"") =
      { status := .ok, count := 0, data := 0x1A2B3C4D5E6F } := by decide +kernel
/-- Program P4 request 2: 16 characters, honestly declared. -/
theorem test_parse_short :
    respond (requestOf "PARSE len=16, vd=1, vh=1 ; txt \"AA:BB:CC:DD:EE:F\"") =
      { status := .absent, count := 0, data := 0 } := by decide +kernel
/-- 95, section 2.2: B13 (no case folding of the delimiter) and B14. -/
theorem test_parse_delimiter_is_exact :
    (respond (requestOf "PARSE len=17, vd=1, vh=1, delim='A' ; txt \"01a23a45a67a89aAB\"")).status = .absent ∧
      (respond (requestOf "PARSE len=17, vd=1, vh=1, delim='a' ; txt \"01a23a45a67a89aAB\"")).data =
        0x0123456789AB := by decide +kernel
/-- 95, section 2.3: the ghost causes of C1, C3, C4, C7. -/
theorem test_parse_causes :
    (["PARSE len=16, vd=1, vh=1, delim='-' ; txt \"AA:BB:CC:DD:EE:FF\"",
      "PARSE len=17, vd=1, vh=1 ; txt \"GA-BB:CC:DD:EE:FF\"",
      "PARSE len=17, vd=1, vh=1 ; txt \"GA:BB:CC:DD:EE:FF\"",
      "PARSE len=17 ; txt \"GA-BB:CC:DD:EE:FF\""].map fun line => requestCause (requestOf line)) =
      [some .tooShort, some .delimiterMismatch, some .invalidHexDigit, none] := by decide +kernel
/-- R104's numbers. -/
theorem test_cause_numbers :
    [FailureCause.tooShort, .delimiterMismatch, .invalidHexDigit, .illegalCommand].map causeNumber =
      [1, 2, 3, 4] := by decide
/-- 95, section 2.4: the thirty bytes of the table, accepted or not. -/
theorem test_hex_set_table :
    ([0x00, 0x0A, 0x10, 0x15, 0x19, 0x1A, 0x20, 0x2F, 0x3A, 0x40, 0x47, 0x50, 0x59, 0x60, 0x67, 0x78, 0x7F,
      0x80, 0xB0, 0xB9, 0xC1, 0xE1, 0xFF].all fun b : Byte => !isHex b) = true ∧
    ([0x30, 0x35, 0x39, 0x41, 0x46, 0x61, 0x66].all fun b : Byte => isHex b) = true := by decide
/-- 95, section 2.5, E1: the octet of a non-hex byte is `NONHEX_OCTET` of its two bytes, the rest is exact. -/
theorem test_parse_nonhex_octet :
    (respond (requestOf "PARSE len=17 ; txt \"GA:BB:CC:DD:EE:FF\"")).status = .ok ∧
      ∀ nonhex : Byte → Byte → Byte,
        octetsOf nonhex (txtOf (requestOf "PARSE len=17 ; txt \"GA:BB:CC:DD:EE:FF\"").data) 0 =
            nonhex 0x47 0x41 ∧
          octetsOf nonhex (txtOf (requestOf "PARSE len=17 ; txt \"GA:BB:CC:DD:EE:FF\"").data) 5 = 0xFF :=
  ⟨by decide +kernel, fun _ => ⟨rfl, rfl⟩⟩
/-- 95, section 2.5, column "ref": E1, E5 and E7 under the informative instance. -/
theorem test_parse_reference_instance :
    (["PARSE len=17 ; txt \"GA:BB:CC:DD:EE:FF\"", "PARSE len=17 ; txt \"AABBCCDDEEFF\"",
      "PARSE len=17 ; txt \"A:B:C:D:E:F:0:1:2\""].map fun line =>
        parseText nonhexOctetRef (txtOf (requestOf line).data) 17 false false 0x3A) =
      [.present 0x0ABBCCDDEEFF, .present 0xAABCDDEF5959, .present 0x833CB33FE332] := by decide +kernel
/-- The stage trace of 95, section 2.10: `H`, `U`, `NIB` and the octets. -/
theorem test_parse_stage_trace :
    let w := stageLoad (txtOf (requestOf "PARSE len=17, vd=1, vh=1, delim='-' ; txt \"FE-dc-Ba-98-76-54\"").data)
    let h := stageDigits w
    List.ofFn h = [0x46, 0x45, 0x64, 0x63, 0x42, 0x61, 0x39, 0x38, 0x37, 0x36, 0x35, 0x34, 0, 0, 0, 0] ∧
      List.ofFn (stageFold h) =
        [0x46, 0x45, 0x44, 0x43, 0x42, 0x41, 0x19, 0x18, 0x17, 0x16, 0x15, 0x14, 0, 0, 0, 0] ∧
      (List.ofFn fun i : Fin 12 => stageNibble h (i.castLE (by decide))) =
        [0x0F, 0x0E, 0x0D, 0x0C, 0x0B, 0x0A, 9, 8, 7, 6, 5, 4] ∧
      (List.ofFn fun k : Fin 6 => stagePair (stageNibble h) (k.castLE (by decide))) =
        [0x00FE, 0x00DC, 0x00BA, 0x0098, 0x0076, 0x0054] ∧
      (List.ofFn (stagePair (nibbleFormula h))).drop 6 = [0x0D59, 0x0D59] := by decide +kernel

/-! ## FORMAT -/

/-- R84's worked example. -/
theorem test_format_worked_example :
    (List.ofFn (formatText 0xFFFF1A2B3C4D5E6F 0x3A false)) =
      [0x31, 0x61, 0x3A, 0x32, 0x62, 0x3A, 0x33, 0x63, 0x3A, 0x34, 0x64, 0x3A, 0x35, 0x65, 0x3A, 0x36,
        0x66] := by decide
/-- 95, section 2.7: F11 (2^48 formats as zero) and F18 (delimiter 0x80). -/
theorem test_format_rows :
    respond (requestOf "FORMAT ; val 0x0001000000000000") =
        { status := .ok, count := 17, data := 0x30303A30303A30303A30303A30303A3030 } ∧
      respond (requestOf "FORMAT uc=0, delim=0x80 ; val 0x0123456789AB") =
        { status := .ok, count := 17, data := 0x62618039388037368035348033328031_30 } := by decide +kernel
/-- The stage trace of 95, section 2.10: `HI` and `D`. -/
theorem test_format_stage_trace :
    List.ofFn (stageHigh (stageSpreadOctets (stageReorder 0x8000F00D0123ABCD))) =
        [0x0F, 0, 0, 2, 0x0A, 0x0C, 0, 0, 0x0F, 0, 0, 2, 0x0A, 0x0C, 0, 0] ∧
      (List.ofFn (digitStream 0x8000F00D0123ABCD true)).take 12 =
        [0x46, 0x30, 0x30, 0x44, 0x30, 0x31, 0x32, 0x33, 0x41, 0x42, 0x43, 0x44] := by decide +kernel

/-! ## One step of the machine -/

/-- A due PARSE and a ready requester: one edge emits its response (S1). -/
theorem test_step_parse :
    deliveredAfter (stateWith (requestOf "PARSE len=17 ; txt \"aa:bb:cc:dd:ee:ff\"") 0 [takePins]) =
      [{ status := .ok, count := 0, data := 0xAABBCCDDEEFF }] := by decide +kernel
/-- A response that is not due yet is not delivered (R126). -/
theorem test_step_parse_waits :
    deliveredAfter (stateWith (requestOf "PARSE len=17 ; txt \"aa:bb:cc:dd:ee:ff\"") 1 [takePins]) = [] := by
  decide +kernel
/-- A due FORMAT and a ready requester (S4). -/
theorem test_step_format :
    deliveredAfter (stateWith (requestOf "FORMAT uc=0 ; val 0xFEDCBA987654") 0 [takePins]) =
      [{ status := .ok, count := 17, data := 0x34353A36373A38393A61623A63643A6566 }] := by decide +kernel
/-- An illegal word is answered, and the run goes on (program P4, request 1). -/
theorem test_step_illegal :
    deliveredAfter (stateWith (requestOf "WORD 0x0300003A ; val 0") 0 [takePins]) =
      [{ status := .illegal, count := 0, data := 0 }] := by decide +kernel
/-- A reset with a request in the queue: no response, and the queue is empty (program P5, R122). -/
theorem test_step_reset :
    step (stateWith (requestOf "FORMAT ; val 0") 0 [resetPins]) = .next State.reset := by rfl
/-- The instruction placed for the host's fetch is the one the next edge runs. -/
theorem test_withFetchWord_format :
    step (State.reset.withFetchWord 32 0x0200003A) =
      .next { State.reset with delivered := [formatResponse false 0x3A 0] } := by rfl
theorem test_withFetchWord_parse :
    step (State.reset.withFetchWord 32 0x0110003A) =
      .next { State.reset with delivered := [{ status := .absent, count := 0, data := 0 }] } := by rfl

/-! ## The assembler (R55, R56) -/

/-- Lines that are no lines of the assembler: a range, an unknown key, a bit that is no bit, a trailing
comma. -/
theorem test_assembler_refuses :
    (["PARSE len=256 ; txt \"\"", "PARSE uc=1 ; txt \"\"", "FORMAT uc=2 ; val 0", "FORMAT uc=1, ; val 0",
      "FORMAT delim=256 ; val 0", "WORD 4294967296 ; val 0", "PARSE ; hex 00", "PARSE32 len=17 ; txt \"\"",
      "PARSE ; txt \"\" ;"].all fun line => (assembleText line.toList).isNone) = true := by decide +kernel
/-- The payload of 95, section 2.6, row 3: `hex`, lane 0 first; and the default `len` of it, 32. -/
theorem test_assembler_hex_payload :
    let r := requestOf
      "PARSE vd=1, vh=1 ; hex 30313A32333A34353A36373A38393A6162FFFFFFFFFFFFFFFFFFFFFFFFFFFFFF"
    r.cmd = 0x0120033A ∧ lane r.data 0 = 0x30 ∧ lane r.data 16 = 0x62 ∧ lane r.data 31 = 0xFF ∧
      (respond r).data = 0x0123456789AB := by decide +kernel

/-! ## Witnesses: the hypotheses of each claim can be met -/

/-- A request that PARSE answers with a value. -/
def goodParse : Request := requestOf "PARSE len=17, vd=1, vh=1 ; txt \"1a:2B:3c:4D:5e:6F\""

/-- The text of `goodParse`. -/
def goodText : TextIn := txtOf goodParse.data

theorem goodParse_decodes : decode goodParse.cmd = .legal (.parse 17 true true 0x3A) := by decide +kernel

theorem goodText_delimiters : ∀ j : Fin 5, goodText ⟨3 * j + 2, by omega⟩ = 0x3A := by decide +kernel

theorem goodText_digits : ∀ i : Fin 12, isHex (digitsOf goodText i) = true := by decide +kernel

/-- The value of `goodText`, whatever `NONHEX_OCTET` is. -/
theorem goodText_parses (nonhex : Byte → Byte → Byte) :
    parseText nonhex goodText 17 true true 0x3A = .present (valueOfOctets (octetsOf nonhex goodText)) :=
  parseText_of_passes (by decide) (fun _ => goodText_delimiters) (fun _ => goodText_digits)

theorem witness_DecodeOfEncode : (Instr.parse 255 true false 0x00).wellFormed = true := by decide

theorem witness_EncodeOfDecode :
    decode 0x0111073A#32 = .legal (.parse 17 true true 0x3A) ∧
      decode 0x02FF072D#32 = .legal (.format true 0x2D) := by decide

theorem witness_OpcodeMapDecides :
    0x01FF073A#32 &&& 0xFF00F800#32 = 0x01000000#32 ∧ 0x02FF073A#32 &&& 0xFF00F800#32 = 0x02000000#32 ∧
      0x0111083A#32 &&& 0xFF00F800#32 ≠ 0x01000000#32 ∧ 0x0111083A#32 &&& 0xFF00F800#32 ≠ 0x02000000#32 := by
  decide

/-- An illegal word, legal words of both opcodes, and a state with the illegal one oldest. -/
theorem witness_IllegalWordsExactly :
    decode 0x0111083A#32 = .illegal (.reservedBits 1) ∧
      (0x0111033A#32).extractLsb' 24 8 = 0x01#8 ∧ (0x0111033A#32).extractLsb' 11 5 = 0#5 ∧
      (0x0200043A#32).extractLsb' 24 8 = 0x02#8 ∧ (0x0200043A#32).extractLsb' 11 5 = 0#5 ∧
      (stateWith { cmd := 0x0111083A, data := 0 } 0 []).queue =
        [{ req := { cmd := 0x0111083A, data := 0 }, wait := 0 }] := by decide

/-- Clause by clause: `LEN` = 16 and 17 at the boundary, a delimiter that differs, a non-hex digit, and a
text that passes. -/
theorem witness_ParseCompletes :
    (stateWith goodParse 0 []).queue = { req := goodParse, wait := 0 } :: [] ∧ 16 < 17 ∧
      (∃ j : Fin 5, lane goodParse.data (3 * j + 2) ≠ 0x2D) ∧
      (∃ i : Fin 12, isHex (lane (requestOf "PARSE ; txt \"GA:BB:CC:DD:EE:FF\"").data (i + i / 2)) = false) ∧
      17 ≤ 17 ∧ (∀ j : Fin 5, lane goodParse.data (3 * j + 2) = 0x3A) ∧
      (∀ i : Fin 12, isHex (lane goodParse.data (i + i / 2)) = true) := by
  refine ⟨rfl, by decide, ⟨0, by decide +kernel⟩, ⟨0, by decide +kernel⟩, by decide, ?_, ?_⟩ <;>
    decide +kernel

theorem witness_FormatCompletes :
    (stateWith (requestOf "FORMAT ; val 0") 0 []).queue =
      { req := requestOf "FORMAT ; val 0", wait := 0 } :: [] := rfl

theorem witness_NothingToAnswer : State.reset.queue = [] := rfl

theorem witness_EdgeRunsTheDecodedInstruction :
    (stateWith goodParse 0 [takePins]).queue = { req := goodParse, wait := 0 } :: [] ∧
      (nextInput (stateWith goodParse 0 [takePins])).rst = false ∧
      (nextInput (stateWith goodParse 0 [takePins])).rspReady = true ∧
      decode goodParse.cmd = .legal (.parse 17 true true 0x3A) := ⟨rfl, rfl, rfl, goodParse_decodes⟩

/-- A request of each kind: a parse cause, an illegal word, no cause. -/
theorem witness_CausesAreIndistinguishable :
    requestCause (requestOf "PARSE ; txt \"\"") = some .tooShort ∧
      requestCause { cmd := 0x00000000, data := 0 } = some .illegalCommand ∧
      requestCause goodParse = none ∧ decode goodParse.cmd = .legal (.parse 17 true true 0x3A) := by
  decide +kernel

theorem witness_ShortInputRefused : 16 ≤ 16 ∧ 17 ≤ 17 ∧ 17 ≤ 255 := by decide

theorem witness_LengthTestAlone : 16 < 17 ∧ 17 ≤ 17 := by decide

/-- A length, a byte that differs from the delimiter, and a text that differs in a delimiter only. -/
theorem witness_DelimiterValidation :
    17 ≤ 17 ∧ (0x2D : Byte) ≠ 0x3A ∧
      ∀ i : Fin 32, (∀ j : Fin 5, i.val ≠ 3 * j + 2) → Function.update goodText 2 0x2D i = goodText i := by
  refine ⟨by decide, by decide, fun i h => Function.update_of_ne (fun e => h 0 ?_) _ _⟩
  rw [e]; rfl

theorem witness_HexValidation :
    17 ≤ 17 ∧ (true = true → ∀ j : Fin 5, goodText ⟨3 * j + 2, by omega⟩ = 0x3A) :=
  ⟨by decide, fun _ => goodText_delimiters⟩

theorem witness_OctetOfTwoHexDigits : isHex 0x46 = true ∧ isHex 0x66 = true := by decide

/-- A text whose first 17 bytes are what FORMAT writes, and a value below 2^48. -/
theorem witness_RoundTrip :
    17 ≤ 17 ∧ (∀ i : Fin 17, txtOf (requestOf "PARSE ; txt \"01-23-45-67-89-AB\"").data (i.castLE (by decide)) =
      formatText 0x0123456789AB 0x2D true i) ∧ (0x0123456789AB : Container).toNat < 2 ^ 48 := by
  refine ⟨by decide, ?_, by decide⟩
  decide +kernel

/-- A text accepted with both validations on; and one whose letters already stand in upper case. -/
theorem witness_ReverseRoundTrip (nonhex : Byte → Byte → Byte) :
    (∃ v, parseText nonhex goodText 17 true true 0x3A = .present v) ∧
      (∃ v, parseText nonhex (txtOf (requestOf "PARSE ; txt \"1A:2B:3C:4D:5E:6F\"").data) 17 true true 0x3A =
        .present v) ∧
      ∀ i : Fin 12, inCase true (digitsOf (txtOf (requestOf "PARSE ; txt \"1A:2B:3C:4D:5E:6F\"").data) i) =
        digitsOf (txtOf (requestOf "PARSE ; txt \"1A:2B:3C:4D:5E:6F\"").data) i := by
  refine ⟨⟨_, goodText_parses nonhex⟩,
    ⟨_, parseText_of_passes (by decide) (fun _ => ?_) (fun _ => ?_)⟩, ?_⟩ <;> decide +kernel

theorem witness_OutputLength : decode 0x0200043A#32 = .legal (.format true 0x3A) := by decide

/-- Two texts that differ in the case of letters. -/
theorem witness_CaseAndMasking :
    let txt := txtOf (requestOf "PARSE ; txt \"aa:bb:cc:dd:ee:ff\"").data
    let txt' := txtOf (requestOf "PARSE ; txt \"AA:BB:CC:DD:EE:FF\"").data
    (∀ j : Fin 5, delimsOf txt' j = delimsOf txt j) ∧
      (∀ i : Fin 12, sameButForCase (digitsOf txt' i) (digitsOf txt i)) ∧
      ∀ k : Fin 6, isHex (highDigit (digitsOf txt) k) = true ∧ isHex (lowDigit (digitsOf txt) k) = true := by
  refine ⟨by decide +kernel, fun i => .inr ?_, by decide +kernel⟩
  revert i
  decide +kernel

/-- Two texts that agree on the first 17 bytes and differ past them, and two lengths. -/
theorem witness_ParseReadsNothingElse :
    17 ≤ 17 ∧ 17 ≤ 255 ∧
      (∀ i : Fin 17, Function.update goodText 31 0xFF (i.castLE (by decide)) =
        goodText (i.castLE (by decide))) ∧
      (∀ i : Fin 12, digitsOf (Function.update goodText 31 0xFF) i = digitsOf goodText i) := by
  have h : ∀ i : Fin 17, Function.update goodText 31 0xFF (i.castLE (by decide)) =
      goodText (i.castLE (by decide)) := fun i => Function.update_of_ne (by
    intro e
    have := congrArg Fin.val e
    simp at this
    omega) _ _
  exact ⟨by decide, by decide, h, fun i => h (digitPos i)⟩

theorem witness_FormatIsInjective :
    formatText ((0x0123456789AB : MacValue).setWidth 64) 0x3A true =
      formatText ((0x0123456789AB : MacValue).setWidth 64) 0x3A true := rfl

theorem witness_ValidationOnlyRefuses (nonhex : Byte → Byte → Byte) :
    parseText nonhex goodText 17 true true 0x3A = .present (valueOfOctets (octetsOf nonhex goodText)) ∧
      (false = true → true = true) := ⟨goodText_parses nonhex, fun _ => rfl⟩

/-- A FORMAT, a PARSE with a value, and a failure. -/
theorem witness_DataField :
    decode (requestOf "FORMAT ; val 0").cmd = .legal (.format true 0x3A) ∧
      decode goodParse.cmd = .legal (.parse 17 true true 0x3A) ∧
      (∃ v, parseText Config.nonhexOctet (fun i => lane goodParse.data i) 17 true true 0x3A = .present v) ∧
      (respond (requestOf "PARSE ; txt \"\"")).status ≠ .ok :=
  ⟨by decide +kernel, goodParse_decodes, ⟨_, goodText_parses _⟩, by decide +kernel⟩

/-- A line of each kind assembles. -/
theorem witness_AssemblerDefaults :
    (assemble (.parse none ⟨none, some true, none⟩ (.txt [0x41]))).isSome = true ∧
      (assemble (.format none (some 255) (2 ^ 64 - 1))).isSome = true ∧
      (assemble (.word (2 ^ 32 - 1) (.val 0))).isSome = true := by decide +kernel

theorem witness_ParseThirtyTwo : (assemble (.parse32 ⟨none, none, none⟩ (.txt []))).isSome = true := by
  decide +kernel

theorem witness_ResetEdge : (nextInput (stateWith goodParse 0 [resetPins])).rst = true := rfl

theorem witness_ResetEdgeOfTheOwnFields : (nextInput (stateWith goodParse 0 [resetPins])).rst = true ∧
    ∃ t, step (stateWith goodParse 0 [resetPins]) = .next t := ⟨rfl, _, rfl⟩

theorem witness_ResponseIsHeld :
    (outPins (stateWith goodParse 0 [])).rspValid = true ∧
      (nextInput (stateWith goodParse 0 [])).rspReady = false ∧
      (nextInput (stateWith goodParse 0 [])).rst = false ∧
      step (stateWith goodParse 0 []) = .next (stateWith goodParse 0 []) := ⟨rfl, rfl, rfl, rfl⟩

theorem witness_PortsShowTheOldestRequest :
    (outPins (stateWith goodParse 1 [])).rspValid = false ∧
      (outPins (stateWith goodParse 0 [])).rspValid = true := ⟨rfl, rfl⟩

/-- The unit can always take one request: `DEPTH` is at least 1. -/
theorem room_at_reset : State.reset.queue.length < Config.depth := Nat.succ_pos _

/-- An edge that accepts, with a request held stable and with one that was changed; and an edge that does
not accept, for each record of the request on the port. -/
theorem witness_EdgeEffect :
    (nextInput { State.reset with stimulus := [presentPins goodParse] }).rst = false ∧
      (∃ t, step { State.reset with stimulus := [presentPins goodParse] } = .next t) ∧
      (nextInput { State.reset with stimulus := [presentPins goodParse] }).reqValid = true ∧
      State.reset.queue.length < Config.depth ∧
      heldStable .idle (pinsRequest (presentPins goodParse)) = true ∧
      (∃ t, step { State.reset with presented := .changed, stimulus := [presentPins goodParse] } = .next t) ∧
      heldStable .changed (pinsRequest (presentPins goodParse)) = false ∧
      ¬ ((nextInput State.reset).reqValid = true ∧ State.reset.queue.length < Config.depth) ∧
      (∀ p, ∃ t, step { State.reset with presented := p } = .next t) :=
  ⟨rfl, ⟨_, rfl⟩, rfl, room_at_reset, rfl, ⟨_, rfl⟩, rfl, fun h => Bool.noConfusion h.1,
    fun _ => ⟨_, rfl⟩⟩

/-- A full queue whose oldest response is due: the unit cannot accept at the first edge and can at the
second. -/
def fullState : State :=
  { State.reset with
    queue := List.replicate Config.depth { req := goodParse, wait := 0 }
    stimulus := List.replicate 2 { presentPins goodParse with rspReady := true } }

theorem fullState_not_ready : reqReady fullState = false := by simp [reqReady, fullState]

theorem fullState_steps :
    afterStep fullState =
      { State.reset with
        queue := List.replicate Config.depthBeyondOne { req := goodParse, wait := 0 }
        presented := .steady goodParse
        stimulus := [{ presentPins goodParse with rspReady := true }]
        delivered := [respond goodParse] } := by
  have hq : (tick (takeInput fullState)).queue = { req := goodParse, wait := 0 } ::
      List.replicate Config.depthBeyondOne { req := goodParse, wait := 0 } := by
    simp [fullState, Config.depth, List.replicate_succ]
  have hv : rspValid fullState = true := by
    simp [rspValid, fullState, Config.depth, List.replicate_succ]
  have hp : nextInput fullState = { presentPins goodParse with rspReady := true } := rfl
  have hs : step fullState = .next (requestPhase { presentPins goodParse with rspReady := true } false
      { tick (takeInput fullState) with
        queue := List.replicate Config.depthBeyondOne { req := goodParse, wait := 0 }
        delivered := [respond goodParse] }) := by
    rw [step, clockEdge, hp, if_neg (by simp [presentPins]), fullState_not_ready,
      responsePhase_answers (by simp [hv]), answerHead_of_cons hq, afterNext_next]
    rfl
  rw [afterStep, hs]
  rfl

/-- A request that waits one edge and is then accepted: `k` = 1. -/
theorem witness_HeldRequestIsCaptured :
    (fullState.presented = .idle ∨ fullState.presented = .steady goodParse) ∧
      1 < fullState.stimulus.length ∧
      (∀ pins ∈ fullState.stimulus.take 2,
        pins.rst = false ∧ pins.reqValid = true ∧ pinsRequest pins = goodParse) ∧
      acceptedIn 1 fullState = [] ∧ acceptedNow (afterSteps 1 fullState) ≠ [] := by
  refine ⟨.inl rfl, by decide, ?_, ?_, ?_⟩
  · intro pins h
    have e : pins = { presentPins goodParse with rspReady := true } := by
      simpa [fullState] using h
    subst e
    exact ⟨rfl, rfl, rfl⟩
  · simp [acceptedIn, acceptedNow, fullState_not_ready]
  · simp only [afterSteps, fullState_steps]
    simp [acceptedNow, nextInput, presentPins, reqReady, Config.depth]

theorem witness_EdgeRefinesUnitSteps :
    (nextInput (stateWith goodParse 0 [takePins])).rst = false ∧
      ∃ t, step (stateWith goodParse 0 [takePins]) = .next t := ⟨rfl, ⟨_, rfl⟩⟩

theorem witness_ResponsesInRequestOrder : noResetFor 2 (stateWith goodParse 0 [takePins, takePins]) := by
  intro pins h
  simp [stateWith] at h
  subst h
  rfl

/-- One request in the queue, the requester only taking responses: it leaves the queue when its wait is
over. -/
theorem single_request_leaves (r : Request) (wait : Nat) (s : State)
    (hq : s.queue = [{ req := r, wait := wait }]) (hs : s.stimulus = List.replicate (wait + 1) takePins) :
    (afterSteps (wait + 1) s).queue = [] ∧ acceptedIn (wait + 1) s = [] := by
  induction wait generalizing s with
  | zero =>
    have hp : nextInput s = takePins := by simp [nextInput, hs]
    have hq' : (tick (takeInput s)).queue = { req := r, wait := 0 } :: [] := by simp [hq]
    have hstep : step s = .next (requestPhase takePins (reqReady s)
        { tick (takeInput s) with queue := [], delivered := s.delivered ++ [respond r] }) := by
      rw [step, clockEdge, hp, if_neg (by simp [takePins]),
        responsePhase_answers (by simp [rspValid, hq, takePins]), answerHead_of_cons hq', afterNext_next]
      rfl
    rw [requestPhase_waits (by simp [takePins])] at hstep
    refine ⟨?_, ?_⟩
    · simp [afterSteps, afterStep, hstep]
    · simp [acceptedIn, acceptedNow, hp, takePins]
  | succ n ih =>
    have hp : nextInput s = takePins := by simp [nextInput, hs, List.replicate_succ]
    have hstep : step s = .next (requestPhase takePins (reqReady s) (tick (takeInput s))) := by
      rw [step, clockEdge, hp, if_neg (by simp [takePins]),
        responsePhase_holds (by simp [rspValid, hq]), afterNext_next]
    rw [requestPhase_waits (by simp [takePins])] at hstep
    have ha : afterStep s = { tick (takeInput s) with
        presented := observe (tick (takeInput s)).presented takePins } := by rw [afterStep, hstep]
    have h := ih (afterStep s) (by rw [ha]; simp [hq]) (by rw [ha]; simp [hs, List.replicate_succ])
    exact ⟨h.1, by rw [acceptedIn, h.2]; simp [acceptedNow, hp, takePins]⟩

/-- The inputs of a run after reset: `goodParse` presented once, drawing a wait of 1, then responses taken. -/
def runInputs : List EdgeInput :=
  { presentPins goodParse with unitWait := 1 } :: List.replicate 2 takePins

/-- A run that has ended, with one request accepted. -/
theorem witness_OutcomeOfARun :
    noResetFor (3) { State.reset with stimulus := runInputs } ∧
      (afterSteps (3) { State.reset with stimulus := runInputs }).queue = [] ∧
      acceptedIn (3) { State.reset with stimulus := runInputs } = [goodParse] := by
  have hp : nextInput { State.reset with stimulus := runInputs } =
      { presentPins goodParse with unitWait := 1 } := rfl
  have hr : reqReady { State.reset with stimulus := runInputs } = true :=
    decide_eq_true room_at_reset
  have hstep : step { State.reset with stimulus := runInputs } =
      .next { State.reset with
        queue := [{ req := goodParse, wait := 1 }]
        stimulus := List.replicate (2) takePins } := by
    rw [step, clockEdge, hp, if_neg (by simp [presentPins]),
      responsePhase_holds (by simp [presentPins]), afterNext_next, hr,
      requestPhase_accepts (by simp [presentPins])]
    rfl
  have h := single_request_leaves goodParse 1
    (afterStep { State.reset with stimulus := runInputs }) (by rw [afterStep, hstep])
    (by rw [afterStep, hstep])
  refine ⟨?_, h.1, ?_⟩
  · intro pins hpins
    have := List.mem_of_mem_take hpins
    simp only [runInputs, List.mem_cons, List.mem_replicate] at this
    rcases this with rfl | ⟨_, rfl⟩ <;> rfl
  · rw [acceptedIn, h.2]
    simp only [acceptedNow, hp, hr]
    rfl

/-- The same run, its one request owned by thread 7. -/
theorem witness_ThreadsGetTheirOwnAnswers :
    ([7] : List Nat).length =
      (acceptedIn (3) { State.reset with stimulus := runInputs }).length := by
  rw [witness_OutcomeOfARun.2.2]; rfl

/-- Two states with different histories and the same oldest request. -/
theorem witness_ResponseIsAFunctionOfTheRequest :
    let s := stateWith goodParse 0 [takePins]
    let s' := { stateWith goodParse 0 [{ presentPins goodParse with rspReady := true }] with
      delivered := [{ status := .illegal, count := 0, data := 0 }] }
    s.queue = { req := goodParse, wait := 0 } :: [] ∧ s'.queue = { req := goodParse, wait := 0 } :: [] ∧
      (nextInput s).rst = false ∧ (nextInput s').rst = false ∧ (nextInput s).rspReady = true ∧
      (nextInput s').rspReady = true ∧ (∃ t, step s = .next t) ∧ ∃ t, step s' = .next t :=
  ⟨rfl, rfl, rfl, rfl, rfl, rfl, ⟨_, rfl⟩, ⟨_, rfl⟩⟩

/-- The boundary `k` = latency, for a request accepted right after reset. -/
theorem witness_LatencyIsExact :
    let s : State := { State.reset with
      stimulus := [{ presentPins goodParse with unitWait := latency goodParse.cmd }] }
    s.queue = [] ∧ (nextInput s).reqValid = true ∧
      noResetFor (latency (captured s (nextInput s)).cmd + 1) s ∧ keepsLatency s ∧
      latency (captured s (nextInput s)).cmd ≤ latency (captured s (nextInput s)).cmd := by
  refine ⟨rfl, rfl, ?_, ?_, le_refl _⟩
  · intro pins h
    have := List.mem_of_mem_take h
    simp at this
    subst this
    rfl
  · intro r h
    simp [acceptedNow, nextInput, presentPins] at h
    rw [h.2]
    rfl

theorem witness_OldestIsDelivered :
    (stateWith goodParse 1 [takePins, takePins]).queue = { req := goodParse, wait := 1 } :: [] ∧
      noResetFor 2 (stateWith goodParse 1 [takePins, takePins]) ∧
      takesFor 2 (stateWith goodParse 1 [takePins, takePins]) := by
  refine ⟨rfl, ?_, by decide, ?_⟩ <;>
  · intro pins h
    simp [stateWith] at h
    subst h
    rfl

/-- A good state that an edge takes on: the one right after reset, accepting a request. -/
theorem witness_GoodIsKept :
    ({ State.reset with stimulus := [presentPins goodParse] } : State).Good ∧
      ∃ t, step { State.reset with stimulus := [presentPins goodParse] } = .next t :=
  ⟨{  room := Nat.zero_le _
      answers := fun _ h => by simp [State.reset] at h }, ⟨_, rfl⟩⟩

/-- The same edge, with the request drawing its latency. -/
theorem witness_InTimeIsKept :
    let s : State := { State.reset with
      stimulus := [{ presentPins goodParse with unitWait := latency goodParse.cmd }] }
    s.InTime ∧ keepsLatency s ∧ ∃ t, step s = .next t :=
  ⟨fun _ h => by simp [State.reset] at h, witness_LatencyIsExact.2.2.2.1, _, rfl⟩

/-- A request presented, withdrawn with other contents on the port, and presented again: `k` = 1. -/
theorem witness_ChangedRequestIsFree :
    let s : State := { State.reset with
      presented := .steady goodParse, stimulus := [takePins, presentPins goodParse] }
    s.presented = .steady goodParse ∧ noResetFor 1 s ∧
      (∃ pins ∈ s.stimulus.take 2, pinsRequest pins ≠ goodParse) ∧ acceptedIn 1 s = [] ∧
      acceptedNow (afterSteps 1 s) ≠ [] := by
  refine ⟨rfl, ?_, ⟨takePins, by simp, by decide +kernel⟩, rfl, ?_⟩
  · intro pins h
    simp at h
    subst h
    rfl
  · have hs : (afterSteps 1 { State.reset with
        presented := .steady goodParse, stimulus := [takePins, presentPins goodParse] }) =
        { State.reset with presented := .changed, stimulus := [presentPins goodParse] } := by rfl
    rw [hs]
    simp [acceptedNow, nextInput, presentPins, reqReady, room_at_reset]

end Sys2Proof.Tests
end

section
/-! One clock edge, field by field: what `step` makes of the queue, the responses, the inputs and the two
bookkeeping fields, for every state. The statements about edges and runs are assembled from these. -/

namespace Sys2Proof.Machine

/-! ## Every edge has a next state -/

/-- The response port never faults or refuses. -/
theorem responsePhase_total (pins : EdgeInput) (valid : Bool) (s : State) :
    ∃ t, responsePhase pins valid s = .next t := by
  cases h : (valid && pins.rspReady) with
  | false => exact ⟨s, responsePhase_holds h⟩
  | true =>
    rw [responsePhase_answers h]
    cases hq : s.queue with
    | nil => exact ⟨s, answerHead_of_empty hq⟩
    | cons e rest => exact ⟨_, answerHead_of_cons hq⟩

/-- Every edge has a next state (60_exceptions.md R107, R112). -/
theorem step_total (s : State) : ∃ t, step s = .next t := by
  unfold step clockEdge
  split
  · exact ⟨_, rfl⟩
  · obtain ⟨t, ht⟩ := responsePhase_total (nextInput s) (rspValid s) (tick (takeInput s))
    exact ⟨_, by rw [ht, afterNext_next]⟩

theorem afterStep_of_step {s t : State} (h : step s = .next t) : afterStep s = t := by
  rw [afterStep, h]

theorem step_eq_afterStep (s : State) : step s = .next (afterStep s) := by
  obtain ⟨t, ht⟩ := step_total s
  rw [ht, afterStep_of_step ht]

/-! ## The parts of an edge -/

/-- What the coming edge emits if it does not reset the unit: the answer of the oldest request, when its
response is presented and taken (10_state.md R25). -/
def deliveredNow (s : State) : List Response :=
  if rspValid s && (nextInput s).rspReady then (s.requests.take 1).map respond else []

/-- The coming edge between its two halves: the response port has acted, the request port has not. -/
def afterResponse (s : State) : State :=
  { tick (takeInput s) with queue := keptQueue s, delivered := s.delivered ++ deliveredNow s }

@[simp] theorem afterResponse_presented (s : State) : (afterResponse s).presented = s.presented := rfl
@[simp] theorem afterResponse_unstableCount (s : State) :
    (afterResponse s).unstableCount = s.unstableCount := rfl
@[simp] theorem afterResponse_queue (s : State) : (afterResponse s).queue = keptQueue s := rfl
@[simp] theorem afterResponse_delivered (s : State) :
    (afterResponse s).delivered = s.delivered ++ deliveredNow s := rfl
@[simp] theorem afterResponse_stimulus (s : State) :
    (afterResponse s).stimulus = s.stimulus.tail := rfl
@[simp] theorem captured_afterResponse (s : State) (pins : EdgeInput) :
    captured (afterResponse s) pins = captured s pins := rfl

/-- An edge with `rst` = 1, and only that: the unit is reset. -/
theorem afterStep_of_reset {s : State} (hr : (nextInput s).rst = true) :
    afterStep s = clockReset (takeInput s) :=
  afterStep_of_step (by rw [step, clockEdge, if_pos hr])

/-- An edge without reset is the response port's part and then the request port's. -/
theorem afterStep_of_no_reset {s : State} (hr : (nextInput s).rst = false) :
    afterStep s = requestPhase (nextInput s) (reqReady s) (afterResponse s) :=
  step_without_reset (step_eq_afterStep s) hr

/-- Each edge uses up one input. -/
@[simp] theorem afterStep_stimulus (s : State) : (afterStep s).stimulus = s.stimulus.tail := by
  cases hr : (nextInput s).rst with
  | true => simp [afterStep_of_reset hr]
  | false => simp [afterStep_of_no_reset hr]

theorem afterStep_delivered {s : State} (hr : (nextInput s).rst = false) :
    (afterStep s).delivered = s.delivered ++ deliveredNow s := by
  simp [afterStep_of_no_reset hr]

/-! ### Deliver -/

/-- With the oldest response presented and taken, that response is what the edge emits. -/
theorem deliveredNow_of_taken {s : State} {e : Entry} {rest : List Entry} (hq : s.queue = e :: rest)
    (hw : e.wait = 0) (hy : (nextInput s).rspReady = true) : deliveredNow s = [respond e.req] := by
  simp [deliveredNow, (rspValid_iff s).mpr ⟨e, rest, hq, hw⟩, hy, State.requests, hq]

/-- Without the handshake of the response port, the edge emits nothing. -/
theorem deliveredNow_of_not_taken {s : State} (h : (rspValid s && (nextInput s).rspReady) = false) :
    deliveredNow s = [] := by
  simp [deliveredNow, h]

/-- Without the handshake of the response port, the whole queue stays, every wait one less. -/
theorem keptQueue_of_not_taken {s : State} (h : (rspValid s && (nextInput s).rspReady) = false) :
    keptQueue s = s.queue.map fun e => { req := e.req, wait := e.wait - 1 } := by
  simp [keptQueue, h]

/-- The requests `keptQueue` leaves: the queue without the one delivered. -/
theorem keptQueue_requests (s : State) :
    (keptQueue s).map Entry.req =
      s.requests.drop (if rspValid s && (nextInput s).rspReady then 1 else 0) := by
  simp [keptQueue, State.requests, List.map_map, Function.comp_def, List.map_drop]

theorem keptQueue_length_le (s : State) : (keptQueue s).length ≤ s.queue.length := by
  simp [keptQueue]

/-- What the edge emits and what it still owes afterwards are the answers owed before, in order. -/
theorem deliveredNow_append_kept (s : State) :
    deliveredNow s ++ ((keptQueue s).map Entry.req).map respond = s.requests.map respond := by
  rw [keptQueue_requests, deliveredNow]
  split
  · rw [← List.map_append, List.take_append_drop]
  · rfl

/-! ### Accept -/

/-- The unit can hold a request (00_scope.md R7). -/
theorem depth_pos : 0 < Config.depth := Nat.succ_pos _

theorem reqReady_iff (s : State) : reqReady s = true ↔ s.queue.length < Config.depth :=
  decide_eq_true_iff

/-- What an edge without reset accepts when it accepts. -/
theorem acceptedNow_of_accept {s : State} (hr : (nextInput s).rst = false)
    (h : ((nextInput s).reqValid && reqReady s) = true) :
    acceptedNow s = [captured s (nextInput s)] := by
  simp [acceptedNow, hr, h]

/-- Without the handshake of the request port, nothing is accepted. -/
theorem acceptedNow_of_not_accept {s : State} (h : ((nextInput s).reqValid && reqReady s) = false) :
    acceptedNow s = [] := by
  simp [acceptedNow, h]

theorem not_accept_of_acceptedNow_nil {s : State} (hr : (nextInput s).rst = false)
    (h : acceptedNow s = []) : ((nextInput s).reqValid && reqReady s) = false := by
  by_contra hc
  simp [acceptedNow_of_accept hr (by simpa using hc)] at h

/-- An edge accepts at most one request, and only into a queue with room. -/
theorem acceptedNow_cases (s : State) :
    acceptedNow s = [] ∨
      acceptedNow s = [captured s (nextInput s)] ∧ s.queue.length < Config.depth := by
  cases hr : (nextInput s).rst with
  | true => exact .inl (by simp [acceptedNow, hr])
  | false =>
    cases h : ((nextInput s).reqValid && reqReady s) with
    | false => exact .inl (acceptedNow_of_not_accept h)
    | true =>
      obtain ⟨_, hready⟩ := Bool.and_eq_true_iff.mp h
      exact .inr ⟨acceptedNow_of_accept hr h, (reqReady_iff s).mp hready⟩

/-- The queue after an edge without reset: what the response port left, then what was accepted. -/
theorem afterStep_queue {s : State} (hr : (nextInput s).rst = false) :
    (afterStep s).queue =
      keptQueue s ++ (acceptedNow s).map fun r => { req := r, wait := (nextInput s).unitWait } := by
  rw [afterStep_of_no_reset hr]
  cases h : ((nextInput s).reqValid && reqReady s) with
  | true => simp [requestPhase_accepts h, acceptedNow_of_accept hr h]
  | false => simp [requestPhase_waits h, acceptedNow_of_not_accept h]

theorem afterStep_requests {s : State} (hr : (nextInput s).rst = false) :
    (afterStep s).requests = (keptQueue s).map Entry.req ++ acceptedNow s := by
  simp [State.requests, afterStep_queue hr, Function.comp_def]

/-! ### What is known of the request on the port -/

/-- An edge without Accept draws no free value and looks at the port. -/
theorem afterStep_of_not_accept {s : State} (hr : (nextInput s).rst = false)
    (h : ((nextInput s).reqValid && reqReady s) = false) :
    (afterStep s).presented = observe s.presented (nextInput s) ∧
      (afterStep s).unstableCount = s.unstableCount := by
  simp [afterStep_of_no_reset hr, requestPhase_waits h]

/-- An edge with Accept frees the port, and draws a free value when the request was not held stable. -/
theorem afterStep_of_accept {s : State} (hr : (nextInput s).rst = false)
    (h : ((nextInput s).reqValid && reqReady s) = true) :
    (afterStep s).presented = .idle ∧
      (afterStep s).unstableCount =
        if heldStable s.presented (pinsRequest (nextInput s)) then s.unstableCount
        else s.unstableCount + 1 := by
  rw [afterStep_of_no_reset hr, requestPhase_accepts h]
  exact ⟨rfl, rfl⟩

theorem captured_of_stable {s : State} {pins : EdgeInput}
    (h : heldStable s.presented (pinsRequest pins) = true) : captured s pins = pinsRequest pins := by
  rw [captured, if_pos h]

theorem captured_of_unstable {s : State} {pins : EdgeInput}
    (h : heldStable s.presented (pinsRequest pins) = false) :
    captured s pins = unstableRequest s.unstableCount := by
  rw [captured, if_neg (by simp [h])]

/-- Nothing yet on the port, or `r` there since it was presented. -/
theorem heldStable_of_idle_or_steady {p : Presented} {r : Request} (h : p = .idle ∨ p = .steady r) :
    heldStable p r = true := by
  rcases h with rfl | rfl <;> simp [heldStable]

/-- Looking at the port while `r` stands on it, as it did before. -/
theorem observe_of_idle_or_steady {p : Presented} {pins : EdgeInput}
    (h : p = .idle ∨ p = .steady (pinsRequest pins)) (hv : pins.reqValid = true) :
    observe p pins = .steady (pinsRequest pins) := by
  rcases h with rfl | rfl <;> simp [observe, hv]

/-! ## The inputs of the coming edges -/

theorem nextInput_mem_take {s : State} (h : s.stimulus ≠ []) (k : Nat) :
    nextInput s ∈ s.stimulus.take (k + 1) := by
  obtain ⟨pins, rest, hs⟩ := List.exists_cons_of_ne_nil h
  simp [nextInput, hs]

/-- The inputs after an edge are among those before it. -/
theorem mem_take_of_afterStep {s : State} {k : Nat} {pins : EdgeInput}
    (h : pins ∈ (afterStep s).stimulus.take k) : pins ∈ s.stimulus.take (k + 1) := by
  rw [afterStep_stimulus] at h
  cases hs : s.stimulus with
  | nil => simp [hs] at h
  | cons first rest =>
    rw [List.take_succ_cons]
    exact List.mem_cons_of_mem _ (by simpa [hs] using h)

theorem noResetFor.head {k : Nat} {s : State} (h : noResetFor (k + 1) s) :
    (nextInput s).rst = false := by
  by_cases hs : s.stimulus = []
  · simp [nextInput, hs, idleInput]
  · exact h _ (nextInput_mem_take hs k)

theorem noResetFor.tail {k : Nat} {s : State} (h : noResetFor (k + 1) s) :
    noResetFor k (afterStep s) :=
  fun _ hp => h _ (mem_take_of_afterStep hp)

theorem takesFor.head {k : Nat} {s : State} (h : takesFor (k + 1) s) :
    (nextInput s).rspReady = true := by
  obtain ⟨hlen, hready⟩ := h
  exact hready _ (nextInput_mem_take (List.ne_nil_of_length_pos (by omega)) k)

theorem takesFor.tail {k : Nat} {s : State} (h : takesFor (k + 1) s) : takesFor k (afterStep s) := by
  obtain ⟨hlen, hready⟩ := h
  refine ⟨?_, fun _ hp => hready _ (mem_take_of_afterStep hp)⟩
  rw [afterStep_stimulus, List.length_tail]
  omega

/-! ## The output ports -/

@[simp] theorem outPins_reqReady (s : State) : (outPins s).reqReady = reqReady s := by
  unfold outPins
  split
  · rfl
  · split <;> rfl

/-- The output ports while a response is valid: those of the oldest request. -/
theorem outPins_of_valid {s : State} {e : Entry} {rest : List Entry} (hq : s.queue = e :: rest)
    (hw : e.wait = 0) :
    outPins s = { reqReady := reqReady s, rspValid := true, rspStatus := statusCode (respond e.req).status
                  rspCount := (respond e.req).count, rspData := (respond e.req).data } := by
  have hv : rspValid s = true := (rspValid_iff s).mpr ⟨e, rest, hq, hw⟩
  simp [outPins, hq, hv]

/-- The output ports while no response is valid: the fields are zero. -/
theorem outPins_of_not_valid {s : State} (hv : rspValid s = false) :
    outPins s = { reqReady := reqReady s, rspValid := false, rspStatus := 0, rspCount := 0, rspData := 0 } := by
  unfold outPins
  split <;> simp [hv]

@[simp] theorem outPins_rspValid (s : State) : (outPins s).rspValid = rspValid s := by
  cases hv : rspValid s with
  | false => simp [outPins_of_not_valid hv]
  | true =>
    obtain ⟨e, rest, hq, hw⟩ := (rspValid_iff s).mp hv
    simp [outPins_of_valid hq hw]

/-- Code 3 is no status (30_encoding.md R50). -/
theorem statusCode_ne_three (st : Status) : statusCode st ≠ 3 := by
  cases st <;> decide

/-! ## Lawful responses (30_encoding.md R50 to R52) -/

theorem dataOfValue_lt (v : MacValue) : (dataOfValue v).toNat < 2 ^ 48 := by
  rw [dataOfValue, BitVec.toNat_setWidth]
  exact lt_of_le_of_lt (Nat.mod_le _ _) v.isLt

theorem statusOfCause_ne_ok (cause : FailureCause) : statusOfCause cause ≠ .ok := by
  cases cause <;> decide

theorem raiseResponse_lawful (cause : FailureCause) : (raiseResponse cause).lawful :=
  .inr (.inr ⟨statusOfCause_ne_ok cause, rfl, rfl⟩)

theorem answerParse_lawful (result : ParseResult) : (answerParse result).lawful := by
  cases result with
  | present v => exact .inr (.inl ⟨rfl, rfl, dataOfValue_lt v⟩)
  | absent cause => exact raiseResponse_lawful cause

/-- Whatever the request, `Exec` answers it with a response the unit may give. -/
theorem respond_lawful (r : Request) : (respond r).lawful := by
  unfold respond
  split
  · exact raiseResponse_lawful _
  · exact answerParse_lawful _
  · exact .inl ⟨rfl, rfl⟩

theorem deliveredNow_lawful {s : State} : ∀ rsp ∈ deliveredNow s, rsp.lawful := by
  intro rsp h
  rw [deliveredNow] at h
  split at h
  · obtain ⟨r, _, rfl⟩ := List.mem_map.mp h
    exact respond_lawful r
  · exact absurd h List.not_mem_nil

/-! ## Decoding -/

/-- What a word decodes to can be encoded: `LEN` is read from 8 bits (30_encoding.md R43). -/
theorem wellFormed_of_decode {w : Command} {i : Instr} (h : decode w = .legal i) :
    i.wellFormed = true := by
  rcases decode_cases w with ⟨_, _, hd⟩ | ⟨_, _, hd⟩ | ⟨_, why, hd⟩ <;> rw [hd] at h <;> cases h
  · have hlt : fieldLen w < 2 ^ 8 := BitVec.isLt _
    exact decide_eq_true (by omega)
  · rfl

end Sys2Proof.Machine
end

section
/-! The unit as a queue (10_state.md R14 to R26): each edge as steps of R16, runs of edges, and the ports. -/

namespace Sys2Proof.Machine

/-! ## Edges as steps of R16 -/

theorem UnitTrace.append {q q' q'' : List Request} {as bs : List UnitAction}
    (h : UnitTrace q as q') (h' : UnitTrace q' bs q'') : UnitTrace q (as ++ bs) q'' := by
  induction h with
  | done => exact h'
  | more first _ ih => exact .more first (ih h')

/-- What the response port does is at most one Deliver. -/
theorem unitTrace_deliveredNow (s : State) :
    UnitTrace s.requests ((deliveredNow s).map UnitAction.deliver) ((keptQueue s).map Entry.req) := by
  cases hv : (rspValid s && (nextInput s).rspReady) with
  | false =>
    rw [deliveredNow_of_not_taken hv, keptQueue_requests, hv]
    exact .done _
  | true =>
    obtain ⟨hvalid, hy⟩ := Bool.and_eq_true_iff.mp hv
    obtain ⟨e, rest, hq, hw⟩ := (rspValid_iff s).mp hvalid
    have hreq : s.requests = e.req :: rest.map Entry.req := by simp [State.requests, hq]
    rw [deliveredNow_of_taken hq hw hy, keptQueue_requests, hv, hreq]
    exact .more (.deliver _ _) (.done _)

/-- What the request port does is at most one Accept; there is room after the Deliver, since there was
before it. -/
theorem unitTrace_acceptedNow (s : State) :
    UnitTrace ((keptQueue s).map Entry.req) ((acceptedNow s).map UnitAction.accept)
      ((keptQueue s).map Entry.req ++ acceptedNow s) := by
  rcases acceptedNow_cases s with h | ⟨h, room⟩
  · rw [h, List.append_nil]
    exact .done _
  · rw [h]
    refine .more (.accept _ _ ?_) (.done _)
    rw [List.length_map]
    exact lt_of_le_of_lt (keptQueue_length_le s) room

theorem deliveredNow_length_le (s : State) : (deliveredNow s).length ≤ 1 := by
  unfold deliveredNow
  split <;> simp

theorem acceptedNow_length_le (s : State) : (acceptedNow s).length ≤ 1 := by
  rcases acceptedNow_cases s with h | ⟨h, _⟩ <;> simp [h]

/-! ## Runs -/

/-- One edge adds the answers of what it accepts, and nothing else, to what is answered or owed. -/
theorem answersOf_afterStep {s : State} (hr : (nextInput s).rst = false) :
    answersOf (afterStep s) = answersOf s ++ (acceptedNow s).map respond := by
  simp only [answersOf]
  rw [afterStep_delivered hr, afterStep_requests hr, ← deliveredNow_append_kept s, List.map_append]
  simp only [List.append_assoc]

/-- A request on the port from the start, not accepted at this edge, is known to stand there. -/
theorem afterStep_of_held {s : State} (hr : (nextInput s).rst = false)
    (hv : (nextInput s).reqValid = true)
    (hp : s.presented = .idle ∨ s.presented = .steady (pinsRequest (nextInput s)))
    (hnone : acceptedNow s = []) :
    (afterStep s).presented = .steady (pinsRequest (nextInput s)) ∧
      (afterStep s).unstableCount = s.unstableCount := by
  obtain ⟨hpres, hcount⟩ := afterStep_of_not_accept hr (not_accept_of_acceptedNow_nil hr hnone)
  exact ⟨by rw [hpres, observe_of_idle_or_steady hp hv], hcount⟩

/-- An edge on which the oldest request still waits: nothing is emitted, and it waits one edge less. -/
theorem afterStep_of_waiting {s : State} {e : Entry} {rest : List Entry} {w : Nat}
    (hr : (nextInput s).rst = false) (hq : s.queue = e :: rest) (hw : e.wait = w + 1) :
    (afterStep s).delivered = s.delivered ∧
      ∃ rest', (afterStep s).queue = { req := e.req, wait := w } :: rest' := by
  have hv : (rspValid s && (nextInput s).rspReady) = false := by simp [rspValid, hq, hw]
  constructor
  · rw [afterStep_delivered hr, deliveredNow_of_not_taken hv, List.append_nil]
  · rw [afterStep_queue hr, keptQueue_of_not_taken hv, hq, List.map_cons, hw]
    exact ⟨_, rfl⟩

/-- The oldest request, its response taken at every edge, is delivered once its wait is over. -/
theorem delivered_after_wait (w : Nat) {s : State} {e : Entry} {rest : List Entry}
    (hq : s.queue = e :: rest) (hw : e.wait = w) (hr : noResetFor (w + 1) s) (hy : takesFor (w + 1) s) :
    (afterSteps (w + 1) s).delivered = s.delivered ++ [respond e.req] := by
  induction w generalizing s e rest with
  | zero =>
    rw [afterSteps, afterSteps, afterStep_delivered hr.head, deliveredNow_of_taken hq hw hy.head]
  | succ w ih =>
    obtain ⟨hdel, rest', hq'⟩ := afterStep_of_waiting hr.head hq hw
    rw [afterSteps, ih hq' rfl hr.tail hy.tail, hdel]

/-! ## Good states -/

/-- An edge keeps a good state good: it accepts only into room, and what it emits is `Exec` of a request. -/
theorem State.Good.afterStep {s : State} (h : s.Good) : (Machine.afterStep s).Good := by
  obtain ⟨room, answers⟩ := h
  cases hr : (nextInput s).rst with
  | true =>
    rw [afterStep_of_reset hr]
    exact ⟨Nat.zero_le _, answers⟩
  | false =>
    constructor
    · have hkept := keptQueue_length_le s
      rw [afterStep_queue hr]
      rcases acceptedNow_cases s with ha | ⟨ha, hroom⟩ <;>
      · simp only [ha, List.map_nil, List.map_cons, List.length_append, List.length_cons, List.length_nil]
        omega
    · intro rsp hrsp
      rw [afterStep_delivered hr] at hrsp
      rcases List.mem_append.mp hrsp with h | h
      · exact answers rsp h
      · exact deliveredNow_lawful rsp h

end Sys2Proof.Machine

namespace Sys2Proof.Proofs

open Sys2Proof.Machine

/-- Settles O45: the response port's half of the edge is at most one Deliver, the request port's half at
most one Accept. -/
theorem edgeRefinesUnitSteps : Obligations.EdgeRefinesUnitSteps := by
  intro s t hr ht
  rw [← afterStep_of_step ht]
  refine ⟨deliveredNow s, acceptedNow s, deliveredNow_length_le s, acceptedNow_length_le s, rfl,
    afterStep_delivered hr, ?_⟩
  rw [afterStep_requests hr]
  exact (unitTrace_deliveredNow s).append (unitTrace_acceptedNow s)

/-- Settles O46, by induction on the number of edges. -/
theorem responsesInRequestOrder : Obligations.ResponsesInRequestOrder := by
  intro k
  induction k with
  | zero => intro s _; simp [afterSteps, acceptedIn]
  | succ k ih =>
    intro s hr
    calc answersOf (afterSteps (k + 1) s)
        = answersOf (afterStep s) ++ (acceptedIn k (afterStep s)).map respond := ih _ hr.tail
      _ = answersOf s ++ (acceptedIn (k + 1) s).map respond := by
          rw [answersOf_afterStep hr.head, acceptedIn, List.map_append, List.append_assoc]

/-- Settles O53. -/
theorem goodIsKept : Obligations.GoodIsKept := by
  intro s t hgood ht
  rw [← afterStep_of_step ht]
  exact hgood.afterStep

/-- Settles O41: a response not taken leaves the oldest request where it is, with its wait still over. -/
theorem responseIsHeld : Obligations.ResponseIsHeld := by
  intro s t hv hy hr ht
  rw [outPins_rspValid] at hv
  obtain ⟨e, rest, hq, hw⟩ := (rspValid_iff s).mp hv
  obtain ⟨rest', hq'⟩ : ∃ rest', t.queue = { req := e.req, wait := 0 } :: rest' := by
    rw [← afterStep_of_step ht, afterStep_queue hr, keptQueue_of_not_taken (by simp [hy]), hq,
      List.map_cons, hw]
    exact ⟨_, rfl⟩
  rw [outPins_of_valid hq hw, outPins_of_valid hq' rfl]
  exact ⟨rfl, rfl, rfl, rfl⟩

/-- Settles O42. -/
theorem portsShowTheOldestRequest : Obligations.PortsShowTheOldestRequest := by
  intro s
  rw [outPins_reqReady, outPins_rspValid]
  refine ⟨reqReady_iff s, ?_⟩
  cases hv : rspValid s with
  | false =>
    rw [outPins_of_not_valid hv]
    exact ⟨fun _ => ⟨rfl, rfl, rfl⟩, nofun, (by decide : (0 : BitVec 2) ≠ 3)⟩
  | true =>
    obtain ⟨e, rest, hq, hw⟩ := (rspValid_iff s).mp hv
    rw [outPins_of_valid hq hw]
    exact ⟨nofun, fun _ => ⟨e, rest, hq, rfl, rfl, rfl⟩, statusCode_ne_three _⟩

/-- Settles O43: field by field, with and without an Accept. -/
theorem edgeEffect : Obligations.EdgeEffect := by
  intro s t hr ht
  rw [← afterStep_of_step ht]
  refine ⟨afterStep_stimulus s, afterStep_delivered hr, ?accepts, ?waits⟩
  case accepts =>
    intro hv hroom
    have ha : ((nextInput s).reqValid && reqReady s) = true := by simp [hv, (reqReady_iff s).mpr hroom]
    obtain ⟨hpres, hcount⟩ := afterStep_of_accept hr ha
    refine ⟨captured s (nextInput s), ?_, hpres, fun hst => ?_, fun hst => ?_⟩
    · rw [afterStep_queue hr, acceptedNow_of_accept hr ha, List.map_singleton]
    · exact ⟨captured_of_stable hst, by rw [hcount, if_pos hst]⟩
    · exact ⟨captured_of_unstable hst, by rw [hcount, if_neg (by simp [hst])]⟩
  case waits =>
    intro hn
    have ha : ((nextInput s).reqValid && reqReady s) = false := by
      rw [← reqReady_iff, ← Bool.and_eq_true_iff] at hn
      simpa using hn
    obtain ⟨hpres, hcount⟩ := afterStep_of_not_accept hr ha
    refine ⟨?_, hcount, fun h => ?_, fun r h => ?_, fun h => ?_⟩
    · rw [afterStep_queue hr, acceptedNow_of_not_accept ha, List.map_nil, List.append_nil]
    all_goals rw [hpres, h, observe]

/-- Settles O44, by induction on the number of edges the request waits: after each of them it is known to
stand on the port as it was presented. -/
theorem heldRequestIsCaptured : Obligations.HeldRequestIsCaptured := by
  intro k
  induction k with
  | zero =>
    intro s r hp hlen hpins _ hacc
    obtain ⟨_, _, rfl⟩ := hpins _ (nextInput_mem_take (List.ne_nil_of_length_pos hlen) 0)
    rcases acceptedNow_cases s with h | ⟨h, _⟩
    · exact absurd h hacc
    · refine ⟨?_, rfl⟩
      rw [afterSteps, h, captured_of_stable (heldStable_of_idle_or_steady hp)]
  | succ k ih =>
    intro s r hp hlen hpins hnone hacc
    obtain ⟨hnow, hlater⟩ := List.append_eq_nil_iff.mp hnone
    obtain ⟨hr, hv, rfl⟩ := hpins _ (nextInput_mem_take (List.ne_nil_of_length_pos (by omega)) (k + 1))
    obtain ⟨hpres, hcount⟩ := afterStep_of_held hr hv hp hnow
    have hlen' : k < (afterStep s).stimulus.length := by
      rw [afterStep_stimulus, List.length_tail]
      omega
    obtain ⟨hcapt, hcount'⟩ := ih (afterStep s) _ (.inr hpres) hlen'
      (fun pins h => hpins pins (mem_take_of_afterStep h)) hlater hacc
    exact ⟨hcapt, hcount'.trans hcount⟩

/-- Settles O49: both emit `respond` of the one request. -/
theorem responseIsAFunctionOfTheRequest : Obligations.ResponseIsAFunctionOfTheRequest := by
  intro s s' t t' e e' rest rest' hq hq' hreq hw hw' hr hr' hy hy' ht ht'
  refine ⟨respond e.req, ?_, ?_⟩
  · rw [← afterStep_of_step ht, afterStep_delivered hr, deliveredNow_of_taken hq hw hy]
  · rw [← afterStep_of_step ht', afterStep_delivered hr', deliveredNow_of_taken hq' hw' hy', hreq]

/-- Settles O52. -/
theorem oldestIsDelivered : Obligations.OldestIsDelivered :=
  fun _ e _ hq hr hy => delivered_after_wait e.wait hq rfl hr hy

/-- Settles O10. -/
theorem nothingToAnswer : Obligations.NothingToAnswer := by
  intro i s hq
  cases i with
  | parse len vd vh delim => rw [exec, execParse, deliver_of_empty hq]
  | format uc delim => rw [exec, execFormat, deliver_of_empty hq]

/-- Settles O11. -/
theorem edgeRunsTheDecodedInstruction : Obligations.EdgeRunsTheDecodedInstruction := by
  intro s e rest i hq hw hr hy hd
  refine ⟨wellFormed_of_decode hd, ?_⟩
  have hv : rspValid s = true := (rspValid_iff s).mpr ⟨e, rest, hq, hw⟩
  have hhead : answerHead (tick (takeInput s)) = exec i (tick (takeInput s)) := by
    simp [answerHead, hq, hd]
  rw [step, clockEdge, if_neg (by simp [hr]), responsePhase_answers (by simp [hv, hy]), hhead]

/-- Settles O39: the queue is empty, and `DEPTH` is at least 1. -/
theorem resetValues : Obligations.ResetValues := by
  have hready : reqReady State.reset = true := (reqReady_iff _).mpr depth_pos
  have hvalid : rspValid State.reset = false := rfl
  exact ⟨rfl, by rw [outPins_of_not_valid hvalid, hready]⟩

/-- Settles O54. -/
theorem goodAtReset : Obligations.GoodAtReset :=
  ⟨⟨Nat.zero_le _, fun _ h => absurd h List.not_mem_nil⟩, fun _ h => absurd h List.not_mem_nil⟩

end Sys2Proof.Proofs
end

section
/-! The two byte swaps of 20_memory.md R33, lane by lane. Both directions of R33 are one operation, the swap
of the eight lanes and the shift by 16 bits; they differ in the word it is applied to. -/

namespace Sys2Proof.Machine

/-! ## Lanes of shifted, widened and appended vectors -/

/-- A shift right by `n` bytes renumbers the lanes. -/
theorem lane_ushiftRight_bytes {w : Nat} (v : BitVec w) (n i : Nat) :
    lane (v >>> (8 * n)) i = lane v (i + n) := by
  apply BitVec.eq_of_getLsbD_eq
  intro j hj
  rw [getLsbD_lane _ _ _ hj, getLsbD_lane _ _ _ hj, BitVec.getLsbD_ushiftRight]
  congr 1
  omega

/-- Past the end of a vector its lanes are zero. -/
theorem lane_of_width_le {w : Nat} (v : BitVec w) (i : Nat) (h : w ≤ 8 * i) : lane v i = 0 := by
  apply BitVec.eq_of_getLsbD_eq
  intro j hj
  rw [getLsbD_lane _ _ _ hj, BitVec.getLsbD_of_ge _ _ (by omega)]
  exact BitVec.getLsbD_zero.symm

/-- A change of width keeps the lanes that lie below the new width. -/
theorem lane_setWidth {w : Nat} (v : BitVec w) (w' i : Nat) (h : 8 * i + 8 ≤ w') :
    lane (v.setWidth w') i = lane v i := by
  apply BitVec.eq_of_getLsbD_eq
  intro j hj
  rw [getLsbD_lane _ _ _ hj, getLsbD_lane _ _ _ hj, BitVec.getLsbD_setWidth]
  simp [show 8 * i + j < w' by omega]

@[simp] theorem lane_zero (w i : Nat) : lane (0#w) i = 0#8 := BitVec.extractLsb'_zero

@[simp] theorem lane_append_byte_zero {w : Nat} (v : BitVec w) (b : Byte) : lane (v ++ b) 0 = b := by
  apply BitVec.eq_of_getLsbD_eq
  intro j hj
  rw [getLsbD_lane _ _ _ hj, BitVec.getLsbD_append]
  simp [hj]

@[simp] theorem lane_append_byte_succ {w : Nat} (v : BitVec w) (b : Byte) (i : Nat) :
    lane (v ++ b) (i + 1) = lane v i := by
  apply BitVec.eq_of_getLsbD_eq
  intro j hj
  rw [getLsbD_lane _ _ _ hj, getLsbD_lane _ _ _ hj, BitVec.getLsbD_append, if_neg (by omega)]
  congr 1
  omega

/-! ## The swap, and the swap with the shift -/

/-- Byte `i` of the swapped word is byte `7-i` of the word (00_scope.md R10). -/
theorem lane_bswap64 (v : Container) (i : Nat) (h : i < 8) : lane (bswap64 v) i = lane v (7 - i) :=
  lane_ofLanes (n := 8) (fun i => lane v (7 - i)) ⟨i, h⟩

/-- Swapped and shifted, the low six lanes stand in the opposite order. -/
theorem lane_bswap64_shift (v : Container) (i : Nat) (h : i < 6) :
    lane (bswap64 v >>> 16) i = lane v (5 - i) := by
  rw [lane_ushiftRight_bytes (bswap64 v) 2 i, lane_bswap64 v (i + 2) (by omega)]
  congr 1
  omega

/-- The shift drops what the swap made of lanes 7 and 6, and brings zeros in at the top. -/
theorem lane_bswap64_shift_high (v : Container) (i : Nat) (h : 6 ≤ i) :
    lane (bswap64 v >>> 16) i = 0 := by
  rw [lane_ushiftRight_bytes (bswap64 v) 2 i]
  exact lane_of_width_le _ _ (by omega)

/-- Octet `k` of a 48-bit value is lane `5-k` of it (20_memory.md R32). -/
theorem octetOf_eq_lane (m : MacValue) (k : Fin 6) : octetOf m k = lane m (5 - k) := by
  rw [octetOf, lane]
  congr 1
  omega

/-- FORMAT's reorder (20_memory.md R33, 41_format.md R87): octet `k` of the value comes to lane `k`. -/
theorem lane_bswap64_shift_value (m : MacValue) (k : Fin 6) :
    lane (bswap64 (m.setWidth 64) >>> 16) k = octetOf m k := by
  rw [lane_bswap64_shift _ _ k.isLt, lane_setWidth _ _ _ (by omega), octetOf_eq_lane]

/-- PARSE's extract (20_memory.md R33, 40_parse.md R82): lanes 0 to 5, lane 0 on top, under 16 zero bits. -/
theorem bswap64_ofLanes_shift (o : Lanes 8) :
    bswap64 (ofLanes 8 o) >>> 16 = 0#16 ++ o 0 ++ o 1 ++ o 2 ++ o 3 ++ o 4 ++ o 5 := by
  refine eq_of_lanes (n := 8) fun i => ?_
  rcases lt_or_ge i.val 6 with low | high
  · have hlane : lane (ofLanes 8 o) (5 - i) = o ⟨5 - i, by omega⟩ := lane_ofLanes o ⟨5 - i, by omega⟩
    rw [lane_bswap64_shift _ _ low, hlane]
    fin_cases i <;> simp at low ⊢
  · rw [lane_bswap64_shift_high _ _ high]
    fin_cases i <;> simp at high ⊢

end Sys2Proof.Machine

namespace Sys2Proof.Proofs

open Sys2Proof.Machine

/-- Settles O23: the one swap and shift, of the eight lanes and of the widened value. -/
theorem byteSwaps : Obligations.ByteSwaps :=
  ⟨bswap64_ofLanes_shift, fun m => ⟨lane_bswap64_shift_value m, lane_bswap64_shift_high _ 6 (by decide),
    lane_bswap64_shift_high _ 7 (by decide)⟩⟩

end Sys2Proof.Proofs
end

section
/-! Runs that have ended, and the responses at one owner's places (20_memory.md R39). -/

namespace Sys2Proof.Machine

theorem answersOf_of_empty {s : State} (h : s.queue = []) : answersOf s = s.delivered := by
  simp [answersOf, State.requests, h]

/-- A run from an empty queue to an empty queue delivers the answers of what it accepts, in order. -/
theorem delivered_of_ended_run {k : Nat} {s : State} (hr : noResetFor k s) (hstart : s.queue = [])
    (hend : (afterSteps k s).queue = []) :
    (afterSteps k s).delivered = s.delivered ++ (acceptedIn k s).map respond := by
  rw [← answersOf_of_empty hstart, ← answersOf_of_empty hend]
  exact Proofs.responsesInRequestOrder k s hr

/-- The entries at one owner's places: to map all entries and select, or to select and map, is the same. -/
theorem select_owner_map {α β : Type} (f : α → β) (owners : List Nat) (xs : List α) (owner : Nat) :
    ((owners.zip (xs.map f)).filter fun p => p.1 == owner).map Prod.snd =
      (((owners.zip xs).filter fun p => p.1 == owner).map Prod.snd).map f := by
  rw [List.zip_map_right, List.filter_map, List.map_map, List.map_map]
  rfl

end Sys2Proof.Machine

namespace Sys2Proof.Proofs

open Sys2Proof.Machine

/-- Settles O48: place by place the responses are `respond` of the requests, whoever owns the places. -/
theorem threadsGetTheirOwnAnswers : Obligations.ThreadsGetTheirOwnAnswers := by
  intro k inputs owners thread hr hend _
  have hdel : (afterSteps k { State.reset with stimulus := inputs }).delivered =
      (acceptedIn k { State.reset with stimulus := inputs }).map respond :=
    delivered_of_ended_run hr rfl hend
  rw [hdel, select_owner_map]

end Sys2Proof.Proofs
end

section
/-! The command word (30_encoding.md R42 to R47, R53 to R57): a word is its packed fields, masking it masks
each field, and its reserved bits and opcode alone say which row of the opcode map it belongs to. -/

namespace Sys2Proof

/-! ## Packed fields -/

/-- A word is the packing of its own fields: the layout of R42 leaves no bit out. -/
theorem packCommand_fields (w : Command) :
    packCommand (fieldOpc w) (BitVec.ofNat 8 (fieldLen w)) (fieldRsvd w) (fieldUc w) (fieldVh w)
      (fieldVd w) (fieldDelim w) = w := by
  have bit (j : Nat) : BitVec.ofBool (w.getLsbD j) = w.extractLsb' j 1 := by
    apply BitVec.eq_of_getLsbD_eq
    intro i hi
    obtain rfl : i = 0 := by omega
    simp
  simp only [packCommand, fieldOpc, fieldLen, fieldRsvd, fieldUc, fieldVh, fieldVd, fieldDelim, bit,
    BitVec.ofNat_toNat, BitVec.setWidth_eq]
  iterate 6 rw [BitVec.extractLsb'_append_extractLsb'_eq_extractLsb' (by rfl)]
  exact BitVec.extractLsb'_eq_self

theorem packCommand_and (opc opc' len len' : BitVec 8) (rsvd rsvd' : BitVec 5)
    (uc uc' vh vh' vd vd' : Bool) (delim delim' : Byte) :
    packCommand opc len rsvd uc vh vd delim &&& packCommand opc' len' rsvd' uc' vh' vd' delim' =
      packCommand (opc &&& opc') (len &&& len') (rsvd &&& rsvd') (uc && uc') (vh && vh') (vd && vd')
        (delim &&& delim') := by
  simp only [packCommand, ← BitVec.ofBool_and_ofBool, ← BitVec.and_append]

/-- Masking a word with a packed mask masks each field. -/
theorem and_packCommand (w : Command) (opc len : BitVec 8) (rsvd : BitVec 5) (uc vh vd : Bool)
    (delim : Byte) :
    w &&& packCommand opc len rsvd uc vh vd delim =
      packCommand (fieldOpc w &&& opc) (BitVec.ofNat 8 (fieldLen w) &&& len) (fieldRsvd w &&& rsvd)
        (fieldUc w && uc) (fieldVh w && vh) (fieldVd w && vd) (fieldDelim w &&& delim) := by
  conv_lhs => rw [← packCommand_fields w]
  rw [packCommand_and]

/-! ## What a word decodes to -/

theorem decode_of_opcParse {w : Command} (hr : fieldRsvd w = 0#5) (ho : fieldOpc w = opcParse) :
    decode w = .legal (.parse (fieldLen w) (fieldVd w) (fieldVh w) (fieldDelim w)) := by
  simp [decode, hr, ho]

theorem decode_of_opcFormat {w : Command} (hr : fieldRsvd w = 0#5) (ho : fieldOpc w = opcFormat) :
    decode w = .legal (.format (fieldUc w) (fieldDelim w)) := by
  simp [decode, hr, ho, (by decide : opcFormat ≠ opcParse)]

/-- Which words are illegal (R53). -/
theorem decode_illegal_iff (w : Command) :
    (∃ why, decode w = .illegal why) ↔
      fieldRsvd w ≠ 0#5 ∨ (fieldOpc w ≠ opcParse ∧ fieldOpc w ≠ opcFormat) := by
  rcases decode_cases w with ⟨hr, ho, hd⟩ | ⟨hr, ho, hd⟩ | ⟨hbad, hd⟩
  · simp [hd, hr, ho]
  · simp [hd, hr, ho]
  · exact iff_of_true hd hbad

/-- A packed PARSE word decodes to PARSE, whatever stands in `UC`. -/
@[simp] theorem decode_packCommand_parse (len : BitVec 8) (uc vh vd : Bool) (delim : Byte) :
    decode (packCommand opcParse len 0#5 uc vh vd delim) = .legal (.parse len.toNat vd vh delim) := by
  rw [decode_of_opcParse (by simp) (by simp)]
  simp

/-- A packed FORMAT word decodes to FORMAT, whatever stands in `LEN`, `VH` and `VD`. -/
@[simp] theorem decode_packCommand_format (len : BitVec 8) (uc vh vd : Bool) (delim : Byte) :
    decode (packCommand opcFormat len 0#5 uc vh vd delim) = .legal (.format uc delim) := by
  rw [decode_of_opcFormat (by simp) (by simp)]
  simp

theorem decode_encode {i : Instr} (h : i.wellFormed = true) : decode (encode i) = .legal i := by
  cases i with
  | parse len vd vh delim =>
    have hlen : len ≤ 255 := of_decide_eq_true h
    rw [encode, decode_packCommand_parse, BitVec.toNat_ofNat, Nat.mod_eq_of_lt (by omega)]
  | format uc delim => rw [encode, decode_packCommand_format]

/-- A word that decodes to an instruction is, with the ignored fields cleared, what the encoder writes. -/
theorem encode_of_decode_parse {w : Command} {len : Nat} {vd vh : Bool} {delim : Byte}
    (h : decode w = .legal (.parse len vd vh delim)) :
    encode (.parse len vd vh delim) = w &&& 0xFFFFFBFF#32 := by
  rcases decode_cases w with ⟨hr, ho, hd⟩ | ⟨_, _, hd⟩ | ⟨_, _, hd⟩ <;> rw [hd] at h <;> cases h
  have mask : 0xFFFFFBFF#32 =
      packCommand (.allOnes 8) (.allOnes 8) (.allOnes 5) false true true (.allOnes 8) := by decide
  rw [mask, and_packCommand, encode, hr, ho]
  simp only [BitVec.and_allOnes, Bool.and_true, Bool.and_false]

theorem encode_of_decode_format {w : Command} {uc : Bool} {delim : Byte}
    (h : decode w = .legal (.format uc delim)) :
    encode (.format uc delim) = w &&& 0xFF00FCFF#32 := by
  rcases decode_cases w with ⟨_, _, hd⟩ | ⟨hr, ho, hd⟩ | ⟨_, _, hd⟩ <;> rw [hd] at h <;> cases h
  have mask : 0xFF00FCFF#32 =
      packCommand (.allOnes 8) 0#8 (.allOnes 5) true false false (.allOnes 8) := by decide
  rw [mask, and_packCommand, encode, hr, ho]
  simp only [BitVec.and_allOnes, BitVec.and_zero, Bool.and_true, Bool.and_false]

/-! ## The opcode map (R54) -/

/-- The mask of the opcode map keeps `OPC` and `RSVD` and clears every other field. -/
theorem and_rowMask (w : Command) :
    w &&& 0xFF00F800#32 = packCommand (fieldOpc w) 0#8 (fieldRsvd w) false false false 0#8 := by
  have mask : 0xFF00F800#32 = packCommand (.allOnes 8) 0#8 (.allOnes 5) false false false 0#8 := by
    decide
  rw [mask, and_packCommand]
  simp only [BitVec.and_allOnes, BitVec.and_zero, Bool.and_false]

theorem and_rowMask_eq_iff (w : Command) (opc : BitVec 8) :
    w &&& 0xFF00F800#32 = packCommand opc 0#8 0#5 false false false 0#8 ↔
      fieldRsvd w = 0#5 ∧ fieldOpc w = opc := by
  rw [and_rowMask]
  constructor
  · intro h
    exact ⟨by simpa using congrArg fieldRsvd h, by simpa using congrArg fieldOpc h⟩
  · rintro ⟨hr, ho⟩
    rw [hr, ho]

theorem and_rowMask_eq_parse_iff (w : Command) :
    w &&& 0xFF00F800#32 = 0x01000000#32 ↔ fieldRsvd w = 0#5 ∧ fieldOpc w = opcParse := by
  rw [← and_rowMask_eq_iff,
    (by decide : packCommand opcParse 0#8 0#5 false false false 0#8 = 0x01000000#32)]

theorem and_rowMask_eq_format_iff (w : Command) :
    w &&& 0xFF00F800#32 = 0x02000000#32 ↔ fieldRsvd w = 0#5 ∧ fieldOpc w = opcFormat := by
  rw [← and_rowMask_eq_iff,
    (by decide : packCommand opcFormat 0#8 0#5 false false false 0#8 = 0x02000000#32)]

theorem rowMatches_iff (row : OpcodeRow) (w : Command) :
    rowMatches row w = true ↔ w &&& row.mask = row.pattern := beq_iff_eq

end Sys2Proof

namespace Sys2Proof.Proofs

open Sys2Proof.Machine

/-- Settles O1. -/
theorem decodeOfEncode : Obligations.DecodeOfEncode := fun _ => decode_encode

/-- Settles O2. -/
theorem encodeOfDecode : Obligations.EncodeOfDecode := by
  intro w i h
  refine ⟨wellFormed_of_decode h, ?_, ?_⟩
  · rintro len vd vh delim rfl
    exact encode_of_decode_parse h
  · rintro uc delim rfl
    exact encode_of_decode_format h

/-- Settles O3: a word matches a row exactly when `RSVD` is zero and `OPC` is the row's. -/
theorem opcodeMapDecides : Obligations.OpcodeMapDecides := by
  intro w
  refine ⟨fun h => ?parse, fun h => ?format, fun hp hf => ?neither, ?notBoth,
    rowMatches_iff rowParse w, rowMatches_iff rowFormat w⟩
  case parse =>
    obtain ⟨hr, ho⟩ := (and_rowMask_eq_parse_iff w).mp h
    exact decode_of_opcParse hr ho
  case format =>
    obtain ⟨hr, ho⟩ := (and_rowMask_eq_format_iff w).mp h
    exact decode_of_opcFormat hr ho
  case neither =>
    rw [Ne, and_rowMask_eq_parse_iff, not_and] at hp
    rw [Ne, and_rowMask_eq_format_iff, not_and] at hf
    rw [decode_illegal_iff]
    by_cases hr : fieldRsvd w = 0#5
    · exact .inr ⟨hp hr, hf hr⟩
    · exact .inl hr
  case notBoth =>
    rw [rowMatches_iff, rowMatches_iff]
    rintro ⟨hp, hf⟩
    exact absurd (hp.symm.trans hf) (by decide)

end Sys2Proof.Proofs
end

section
/-! The response fields (30_encoding.md R49 to R53, R57): `respond` of each kind of word, the fields of the
answers of PARSE and FORMAT, and what the operands of a payload are as its lanes and bits. -/

namespace Sys2Proof.Machine

/-! ## `Exec` of each kind of word (R57) -/

/-- Of the command word `Exec` sees only what it decodes to. -/
theorem respond_of_decode_eq {cmd cmd' : Command} (h : decode cmd = decode cmd') (data : Payload) :
    respond { cmd := cmd, data := data } = respond { cmd := cmd', data := data } := by
  simp only [respond, h]

theorem respond_of_parse {r : Request} {len : Nat} {vd vh : Bool} {delim : Byte}
    (h : decode r.cmd = .legal (.parse len vd vh delim)) :
    respond r = parseResponse len vd vh delim r.data := by
  simp [respond, h]

theorem respond_of_format {r : Request} {uc : Bool} {delim : Byte}
    (h : decode r.cmd = .legal (.format uc delim)) :
    respond r = formatResponse uc delim r.data := by
  simp [respond, h]

theorem respond_of_illegal {r : Request} {why : IllegalWord} (h : decode r.cmd = .illegal why) :
    respond r = { status := .illegal, count := 0, data := 0 } := by
  simp only [respond, h]
  rfl

@[simp] theorem answerParse_count (result : ParseResult) : (answerParse result).count = 0 := by
  cases result <;> rfl

/-! ## The answer of PARSE -/

/-- PARSE fails with one of its own three causes only (60_exceptions.md R106). -/
theorem parseText_ne_illegalCommand (nonhex : Byte → Byte → Byte) (txt : TextIn) (len : Nat)
    (vd vh : Bool) (delim : Byte) : parseText nonhex txt len vd vh delim ≠ .absent .illegalCommand := by
  unfold parseText
  repeat' split
  all_goals nofun

theorem raiseResponse_of_ne_illegalCommand {cause : FailureCause} (h : cause ≠ .illegalCommand) :
    raiseResponse cause = { status := .absent, count := 0, data := 0 } := by
  cases cause with
  | illegalCommand => exact absurd rfl h
  | _ => rfl

/-- When one of the three tests fails, PARSE answers `(ABSENT, 0, 0)`. -/
theorem parseResponse_of_fails {len : Nat} {vd vh : Bool} {delim : Byte} {data : Payload}
    (h : len < 17 ∨ (vd = true ∧ ∃ j, delimsOf (txtOf data) j ≠ delim) ∨
      (vh = true ∧ ∃ i, isHex (digitsOf (txtOf data) i) = false)) :
    parseResponse len vd vh delim data = { status := .absent, count := 0, data := 0 } := by
  rw [parseResponse]
  cases hp : parseText Config.nonhexOctet (txtOf data) len vd vh delim with
  | present v =>
    obtain ⟨hlen, hdelim, hhex, _⟩ := passes_of_parseText hp
    rcases h with hlt | ⟨hvd, j, hj⟩ | ⟨hvh, i, hi⟩
    · omega
    · exact absurd (hdelim hvd j) hj
    · simp [hhex hvh i] at hi
  | absent cause =>
    refine raiseResponse_of_ne_illegalCommand ?_
    rintro rfl
    exact parseText_ne_illegalCommand _ _ _ _ _ _ hp

/-- When no test that is switched on fails, PARSE answers the value of the octets. -/
theorem parseResponse_of_passes {len : Nat} {vd vh : Bool} {delim : Byte} {data : Payload}
    (hl : 17 ≤ len) (hd : vd = true → ∀ j, delimsOf (txtOf data) j = delim)
    (hx : vh = true → ∀ i, isHex (digitsOf (txtOf data) i) = true) :
    parseResponse len vd vh delim data =
      { status := .ok, count := 0,
        data := dataOfValue (valueOfOctets (octetsOf Config.nonhexOctet (txtOf data))) } := by
  rw [parseResponse, parseText_of_passes hl hd hx, answerParse]

/-- The two digits of octet `k` stand at offsets `3k` and `3k+1` (20_memory.md R30). -/
theorem octetsOf_txtOf (nonhex : Byte → Byte → Byte) (data : Payload) (k : Fin 6) :
    octetsOf nonhex (txtOf data) k = octetOfDigits nonhex (lane data (3 * k)) (lane data (3 * k + 1)) := by
  have high : highDigit (digitsOf (txtOf data)) k = lane data (3 * k) :=
    congrArg (lane data) (by simp only [digitPos, Fin.val_castLE]; omega)
  have low : lowDigit (digitsOf (txtOf data)) k = lane data (3 * k + 1) :=
    congrArg (lane data) (by simp only [digitPos, Fin.val_castLE]; omega)
  rw [octetsOf, high, low]

/-! ## The value in the response data (R52) -/

theorem dataOfValue_octet (v : MacValue) (k : Fin 6) :
    (dataOfValue v).extractLsb' (40 - 8 * k) 8 = octetOf v k :=
  BitVec.extractLsb'_setWidth_of_le (by omega)

@[simp] theorem dataOfValue_low (v : MacValue) : (dataOfValue v).extractLsb' 0 48 = v := by
  rw [dataOfValue, BitVec.extractLsb'_setWidth_of_le (by decide), BitVec.extractLsb'_eq_self]

theorem dataOfValue_high (v : MacValue) {start : Nat} (n : Nat) (h : 48 ≤ start) :
    (dataOfValue v).extractLsb' start n = 0 := by
  apply BitVec.eq_of_getLsbD_eq
  intro j hj
  simp only [dataOfValue, BitVec.getLsbD_extractLsb', BitVec.getLsbD_setWidth,
    BitVec.getLsbD_of_ge v (start + j) (by omega), Bool.and_false]
  exact BitVec.getLsbD_zero.symm

/-! ## The answer of FORMAT -/

@[simp] theorem lane_formatResponse (uc : Bool) (delim : Byte) (data : Payload) (i : Fin 17) :
    lane (formatResponse uc delim data).data i = formatText (containerOf data) delim uc i :=
  lane_ofLanes _ i

section
variable (v : Container) (delim : Byte) (uc : Bool)

theorem formatText_high (k : Fin 6) :
    formatText v delim uc ⟨3 * k, by omega⟩ = hexChar uc (highNibble (octetOf (maskedValue v) k)) := by
  simp [formatText]

theorem formatText_low (k : Fin 6) :
    formatText v delim uc ⟨3 * k + 1, by omega⟩ = hexChar uc (lowNibble (octetOf (maskedValue v) k)) := by
  have hdiv : (3 * k.val + 1) / 3 = k := by omega
  simp [formatText, hdiv]

theorem formatText_delim (j : Fin 5) : formatText v delim uc ⟨3 * j + 2, by omega⟩ = delim := by
  simp [formatText]

end

/-- A field of a field is a field of the word. -/
theorem extractLsb'_of_extractLsb' {w : Nat} (x : BitVec w) {start len start' len' : Nat}
    (h : start + len ≤ len') :
    (x.extractLsb' start' len').extractLsb' start len = x.extractLsb' (start' + start) len := by
  apply BitVec.eq_of_getLsbD_eq
  intro j hj
  simp [hj, show start + j < len' by omega, Nat.add_assoc]

/-- Octet `k` of `V[47:0]` is bits `47-8k:40-8k` of the payload (R48, 41_format.md R84). -/
theorem octetOf_maskedValue (data : Payload) (k : Fin 6) :
    octetOf (maskedValue (containerOf data)) k = data.extractLsb' (40 - 8 * k) 8 := by
  rw [octetOf, maskedValue, containerOf, BitVec.extractLsb'_extractLsb'_of_le (by omega),
    BitVec.extractLsb'_extractLsb'_of_le (by omega)]

theorem highNibble_field (data : Payload) (k : Fin 6) :
    highNibble (data.extractLsb' (40 - 8 * k) 8) = data.extractLsb' (44 - 8 * k) 4 := by
  rw [highNibble, extractLsb'_of_extractLsb' _ (by decide)]
  congr 1
  omega

theorem lowNibble_field (data : Payload) (k : Fin 6) :
    lowNibble (data.extractLsb' (40 - 8 * k) 8) = data.extractLsb' (40 - 8 * k) 4 :=
  extractLsb'_of_extractLsb' _ (by decide)

end Sys2Proof.Machine

namespace Sys2Proof.Proofs

open Sys2Proof.Machine

/-- Settles O4: the reserved bits and the opcode decide, and `respond` of an illegal word reads no payload. -/
theorem illegalWordsExactly : Obligations.IllegalWordsExactly := by
  intro w
  refine ⟨(decode_illegal_iff w).trans or_comm, fun ho hr => ?parse, fun ho hr => ?format,
    fun why hd => ⟨fun data => respond_of_illegal hd, ?frame⟩⟩
  case parse => exact ⟨_, _, _, _, decode_of_opcParse hr ho⟩
  case format => exact ⟨_, _, decode_of_opcFormat hr ho⟩
  case frame =>
    rintro s e rest hq rfl
    rw [answerHead_of_cons hq, respond_of_illegal hd]

/-- Settles O7: the words decode to the same instruction. -/
theorem ignoredFieldsDoNotMatter : Obligations.IgnoredFieldsDoNotMatter := by
  intro len len' uc vd vh vd' vh' delim data
  constructor
  · exact respond_of_decode_eq ((decode_packCommand_parse len uc vh vd delim).trans
      (decode_packCommand_parse len (!uc) vh vd delim).symm) data
  · exact respond_of_decode_eq ((decode_packCommand_format len uc vh vd delim).trans
      (decode_packCommand_format len' uc vh' vd' delim).symm) data

/-- Settles O8: the one response is `parseResponse` of the payload, failing or passing the tests. -/
theorem parseCompletes : Obligations.ParseCompletes := by
  intro len vd vh delim s e rest hq
  refine ⟨parseResponse len vd vh delim e.req.data, ?frame,
    fun h => parseResponse_of_fails (data := e.req.data) h, ?passes⟩
  case frame => rw [exec, execParse, deliver_of_cons hq]
  case passes =>
    intro hl hd hx
    rw [parseResponse_of_passes hl hd hx]
    refine ⟨rfl, rfl, dataOfValue_high _ 88 (by decide), fun k => ?_⟩
    rw [dataOfValue_octet, octetOf_valueOfOctets, octetsOf_txtOf, octetOfDigits]

/-- Settles O9: lane `i` of the response is character `i` of the text. -/
theorem formatCompletes : Obligations.FormatCompletes := by
  intro uc delim s e rest hq
  refine ⟨formatResponse uc delim e.req.data, ?frame, rfl, rfl, fun k => ⟨?high, ?low⟩, fun j => ?delim⟩
  case frame => rw [exec, execFormat, deliver_of_cons hq]
  case high =>
    rw [lane_formatResponse uc delim e.req.data ⟨3 * k, by omega⟩, formatText_high, octetOf_maskedValue,
      highNibble_field]
  case low =>
    rw [lane_formatResponse uc delim e.req.data ⟨3 * k + 1, by omega⟩, formatText_low,
      octetOf_maskedValue, lowNibble_field]
  case delim => rw [lane_formatResponse uc delim e.req.data ⟨3 * j + 2, by omega⟩, formatText_delim]

/-- Settles O35. -/
theorem dataField : Obligations.DataField := by
  intro r
  refine ⟨fun uc delim hd i => ?format, fun len vd vh delim v hd hp => ?present, fun hs => ?failure⟩
  case format =>
    rw [respond_of_format hd, lane_formatResponse, containerOf]
  case present =>
    have hr : respond r = { status := .ok, count := 0, data := dataOfValue v } := by
      rw [respond_of_parse hd]
      exact congrArg answerParse hp
    rw [hr]
    exact ⟨dataOfValue_low v, dataOfValue_high v 16 (by decide), dataOfValue_high v 72 (by decide)⟩
  case failure =>
    rcases respond_lawful r with ⟨hok, _⟩ | ⟨hok, _⟩ | ⟨_, _, hzero⟩
    · exact absurd hok hs
    · exact absurd hok hs
    · exact hzero

/-- Settles O34. -/
theorem countField : Obligations.CountField := by
  intro r
  cases hd : decode r.cmd with
  | legal i =>
    cases i with
    | parse len vd vh delim => rw [respond_of_parse hd]; exact answerParse_count _
    | format uc delim => rw [respond_of_format hd]; rfl
  | illegal why => rw [respond_of_illegal hd]

end Sys2Proof.Proofs
end

section
/-! The assembler (30_encoding.md R55, R56): the ranges of each kind of line, the word and the payload it
stands for. -/

namespace Sys2Proof

/-! ## The words the encoder writes -/

@[simp] theorem fieldUc_encode_parse (len : Nat) (vd vh : Bool) (delim : Byte) :
    fieldUc (encode (.parse len vd vh delim)) = false := by
  rw [encode, fieldUc_packCommand]

/-- The fields FORMAT ignores are written 0. -/
theorem encode_format_ignored (uc : Bool) (delim : Byte) :
    (encode (.format uc delim)).extractLsb' 16 8 = 0 ∧ (encode (.format uc delim)).extractLsb' 8 2 = 0 := by
  have hlen : fieldLen (encode (.format uc delim)) = 0 := by simp [encode]
  have hvh : (encode (.format uc delim)).getLsbD 9 = false := fieldVh_packCommand ..
  have hvd : (encode (.format uc delim)).getLsbD 8 = false := fieldVd_packCommand ..
  refine ⟨BitVec.eq_of_toNat_eq hlen, BitVec.eq_of_getLsbD_eq fun j hj => ?_⟩
  interval_cases j
  · simpa using hvd
  · simpa using hvh

end Sys2Proof

namespace Sys2Proof.Machine

/-! ## Lines whose numbers are in range -/

theorem assemble_eq_some_iff (line : AsmLine) (r : Request) :
    assemble line = some r ↔
      line.wellFormed = true ∧ r = { cmd := commandOf line, data := payloadOf line } := by
  rw [assemble]
  cases line.wellFormed with
  | true => simp [eq_comm]
  | false => simp

section
variable (len : Option Nat) (opts : ParseOptions) (text : TextPayload)

theorem wellFormed_parse_iff : (AsmLine.parse len opts text).wellFormed = true ↔
    len.getD 0 ≤ 255 ∧ byteInRange opts.delim = true ∧ text.wellFormed = true := by
  simp [AsmLine.wellFormed, and_assoc]

theorem wellFormed_parse32_iff : (AsmLine.parse32 opts text).wellFormed = true ↔
    byteInRange opts.delim = true ∧ text.wellFormed = true := by
  simp [AsmLine.wellFormed]

theorem wellFormed_format_iff (uc : Option Bool) (delim : Option Nat) (value : Nat) :
    (AsmLine.format uc delim value).wellFormed = true ↔ byteInRange delim = true ∧ value < 2 ^ 64 := by
  simp [AsmLine.wellFormed]

theorem wellFormed_word_text_iff (number : Nat) : (AsmLine.word number (.text text)).wellFormed = true ↔
    number < 2 ^ 32 ∧ text.wellFormed = true := by
  simp [AsmLine.wellFormed]

theorem wellFormed_word_val_iff (number value : Nat) :
    (AsmLine.word number (.val value)).wellFormed = true ↔ number < 2 ^ 32 ∧ value < 2 ^ 64 := by
  simp [AsmLine.wellFormed]

end

theorem number_lt_of_wellFormed_word {number : Nat} {payload : AnyPayload}
    (h : (AsmLine.word number payload).wellFormed = true) : number < 2 ^ 32 := by
  cases payload with
  | text t => exact ((wellFormed_word_text_iff t number).mp h).1
  | val value => exact ((wellFormed_word_val_iff number value).mp h).1

/-! ## The word of a line -/

theorem defaultLen_le (text : TextPayload) : defaultLen text ≤ 255 := by
  cases text with
  | txt codes => exact Nat.min_le_right _ _
  | hex bytes => exact (by decide : 32 ≤ 255)

/-- The length of a PARSE line fits its field, written or omitted. -/
theorem parseLen_le {len : Option Nat} (h : len.getD 0 ≤ 255) (text : TextPayload) :
    len.getD (defaultLen text) ≤ 255 := by
  cases len with
  | none => exact defaultLen_le text
  | some n => exact h

theorem decode_encode_parseOf {len : Nat} (h : len ≤ 255) (opts : ParseOptions) :
    decode (encode (parseOf len opts)) = .legal (parseOf len opts) :=
  decode_encode (decide_eq_true h)

/-! ## The payload of a line -/

/-- `val` writes its number into the low 64 bits. -/
theorem valuePayload_toNat {n : Nat} (h : n < 2 ^ 64) : (valuePayload n).toNat = n := by
  rw [valuePayload, BitVec.toNat_setWidth, BitVec.toNat_ofNat, Nat.mod_eq_of_lt h,
    Nat.mod_eq_of_lt (by omega)]

theorem lane_payloadOfBytes (bytes : List Nat) (i : Fin 32) :
    lane (payloadOfBytes bytes) i = BitVec.ofNat 8 (bytes.getD i 0) :=
  lane_ofLanes (n := 32) _ i

theorem lanesHold_payloadOfBytes {bytes : List Nat} (h : ∀ b ∈ bytes, b ≤ 255) :
    lanesHold (payloadOfBytes bytes) bytes := by
  intro i
  rw [lane_payloadOfBytes, List.getD_eq_getElem?_getD]
  constructor
  · intro n hn
    have hle : n ≤ 255 := h n (List.mem_of_getElem? hn)
    rw [hn, Option.getD_some, BitVec.toNat_ofNat, Nat.mod_eq_of_lt (by omega)]
  · intro hpast
    rw [List.getElem?_eq_none hpast, Option.getD_none]
    rfl

/-- The lanes of a text directive hold its codes or bytes, lane 0 first. -/
theorem lanesHold_textPayload {text : TextPayload} (h : text.wellFormed = true) :
    (∀ codes, text = .txt codes → lanesHold (textPayload text) codes) ∧
      (∀ bytes, text = .hex bytes → bytes.length = 32 ∧ lanesHold (textPayload text) bytes) := by
  constructor
  · rintro codes rfl
    exact lanesHold_payloadOfBytes (by simpa [TextPayload.wellFormed] using h)
  · rintro bytes rfl
    obtain ⟨hlen, hbytes⟩ : bytes.length = 32 ∧ ∀ b ∈ bytes, b ≤ 255 := by
      simpa [TextPayload.wellFormed] using h
    exact ⟨hlen, lanesHold_payloadOfBytes hbytes⟩

/-! ## The cause of a PARSE -/

theorem parseCause_ne_tooShort (txt : TextIn) {len : Nat} (h : 17 ≤ len) (vd vh : Bool) (delim : Byte) :
    parseCause txt len vd vh delim ≠ some .tooShort := by
  rw [parseCause, if_neg (by omega)]
  repeat' split
  all_goals nofun

theorem requestCause_of_parse {r : Request} {len : Nat} {vd vh : Bool} {delim : Byte}
    (h : decode r.cmd = .legal (.parse len vd vh delim)) :
    requestCause r = parseCause (txtOf r.data) len vd vh delim := by
  simp [requestCause, h]

/-- `PARSE32` is `PARSE len=32` (R56). -/
theorem assemble_parse32 (opts : ParseOptions) (text : TextPayload) :
    assemble (.parse32 opts text) = assemble (.parse (some 32) opts text) := by
  have range : (AsmLine.parse32 opts text).wellFormed = (AsmLine.parse (some 32) opts text).wellFormed := by
    simp [AsmLine.wellFormed]
  simp only [assemble, range]
  rfl

end Sys2Proof.Machine

namespace Sys2Proof.Proofs

open Sys2Proof.Machine

/-- Settles O37, one kind of line at a time. -/
theorem assemblerDefaults : Obligations.AssemblerDefaults := by
  intro line r h
  obtain ⟨hwf, rfl⟩ := (assemble_eq_some_iff line r).mp h
  refine ⟨?parse, ?parse32, ?format, ?word, ?text, ?value⟩
  case parse =>
    rintro len opts text rfl
    obtain ⟨hlen, _, _⟩ := (wellFormed_parse_iff len opts text).mp hwf
    refine ⟨?_, fieldUc_encode_parse ..⟩
    have hd := decode_encode_parseOf (parseLen_le hlen text) opts
    cases text <;> exact hd
  case parse32 =>
    rintro opts text rfl
    exact ⟨decode_encode_parseOf (by decide) opts, fieldUc_encode_parse ..⟩
  case format =>
    rintro uc delim value rfl
    obtain ⟨_, hvalue⟩ := (wellFormed_format_iff uc delim value).mp hwf
    obtain ⟨hlen, hswitches⟩ := encode_format_ignored (uc.getD defaultUc)
      (BitVec.ofNat 8 (delim.getD defaultDelim))
    exact ⟨decode_encode rfl, hlen, hswitches, valuePayload_toNat hvalue, hvalue⟩
  case word =>
    rintro number payload rfl
    exact Nat.mod_eq_of_lt (number_lt_of_wellFormed_word hwf)
  case text =>
    rintro text (⟨len, opts, rfl⟩ | ⟨opts, rfl⟩ | ⟨number, rfl⟩)
    · obtain ⟨_, _, htext⟩ := (wellFormed_parse_iff len opts text).mp hwf
      exact lanesHold_textPayload htext
    · obtain ⟨_, htext⟩ := (wellFormed_parse32_iff opts text).mp hwf
      exact lanesHold_textPayload htext
    · obtain ⟨_, htext⟩ := (wellFormed_word_text_iff text number).mp hwf
      exact lanesHold_textPayload htext
  case value =>
    rintro number value rfl
    obtain ⟨_, hvalue⟩ := (wellFormed_word_val_iff number value).mp hwf
    exact ⟨valuePayload_toNat hvalue, hvalue⟩

/-- Settles O38: 32 is not below 17. -/
theorem parseThirtyTwo : Obligations.ParseThirtyTwo := by
  intro opts text
  refine ⟨assemble_parse32 opts text, fun r h => ?_⟩
  obtain ⟨_, hr⟩ := (assemble_eq_some_iff _ r).mp h
  have hd : decode r.cmd = .legal (parseOf 32 opts) := by
    rw [hr]
    exact decode_encode_parseOf (by decide) opts
  rw [requestCause_of_parse hd]
  exact parseCause_ne_tooShort _ (by decide) _ _ _

/-- Settles O5: the assembler read on the fourteen lines of R58, the decoder on its five illegal words. -/
theorem workedCommandWords : Obligations.WorkedCommandWords :=
  ⟨by decide +kernel, by decide⟩

/-- Settles O6: each of the four words has zero reserved bits and the opcode of its row. -/
theorem wordsDecode : Obligations.WordsDecode :=
  ⟨decode_of_opcParse (by decide) (by decide), decode_of_opcParse (by decide) (by decide),
    decode_of_opcFormat (by decide) (by decide), decode_of_opcFormat (by decide) (by decide)⟩

end Sys2Proof.Proofs
end

section
/-! The functional rules of PARSE: the hex set, the octet of two characters, the value of six octets and the
length test (40_parse.md R62, R65, R68, R69, R71). -/

namespace Sys2Proof.Machine

/-! ## The hex set (R65) -/

theorem inRange_iff (b lo hi : Byte) : inRange b lo hi = true ↔ lo ≤ b ∧ b ≤ hi := by
  simp [inRange, BitVec.le_def]

theorem isHex_iff (b : Byte) : isHex b = true ↔
    (0x30#8 ≤ b ∧ b ≤ 0x39#8) ∨ (0x41#8 ≤ b ∧ b ≤ 0x46#8) ∨ (0x61#8 ≤ b ∧ b ≤ 0x66#8) := by
  simp only [isHex, Bool.or_eq_true, inRange_iff, or_assoc]

/-- With bit 0x20 cleared a byte lies in `A..F` exactly when it is a letter of the hex set: R65's own
derivation, checked on every byte. -/
theorem inRange_fold : ∀ b : Byte,
    inRange (b &&& 0xDF) 0x41 0x46 = (inRange b 0x41 0x46 || inRange b 0x61 0x66) := by decide +kernel

theorem isHex_eq_folded (b : Byte) : isHex b = (isDigit b || inRange (b &&& 0xDF) 0x41 0x46) := by
  rw [inRange_fold, ← Bool.or_assoc]
  rfl

/-! ## The octet of two digit bytes (R68, R71) -/

theorem octetOfDigits_of_isHex (nonhex : Byte → Byte → Byte) {hi lo : Byte} (hhi : isHex hi = true)
    (hlo : isHex lo = true) :
    octetOfDigits nonhex hi lo = BitVec.ofNat 8 (16 * hexValue hi + hexValue lo) := by
  simp [octetOfDigits, hhi, hlo]

/-- On the hex set the informative formula of R71 is the hex value. -/
theorem nibbleRef_of_isHex : ∀ b : Byte, isHex b = true → nibbleRef b = BitVec.ofNat 8 (hexValue b) := by
  decide +kernel

/-- On hex characters `NONHEX_OCTET_ref` is the exact octet of R68, whatever the open parameter is. -/
theorem octetOfDigits_eq_ref (nonhex : Byte → Byte → Byte) {hi lo : Byte} (hhi : isHex hi = true)
    (hlo : isHex lo = true) : octetOfDigits nonhex hi lo = nonhexOctetRef hi lo := by
  rw [octetOfDigits_of_isHex nonhex hhi hlo, nonhexOctetRef, nibbleRef_of_isHex hi hhi,
    nibbleRef_of_isHex lo hlo, BitVec.ofNat_add, BitVec.ofNat_mul]
  rfl

/-- With the reference function in the place of the open parameter there is one formula for all bytes. -/
theorem octetOfDigits_ref (hi lo : Byte) : octetOfDigits nonhexOctetRef hi lo = nonhexOctetRef hi lo := by
  by_cases both : (isHex hi && isHex lo) = true
  · obtain ⟨hhi, hlo⟩ := Bool.and_eq_true_iff.mp both
    exact octetOfDigits_eq_ref _ hhi hlo
  · rw [octetOfDigits, if_neg both]

/-! ## The value of six octets (R69) -/

/-- A byte appended below is a digit in base 256. -/
theorem toNat_append_byte {w : Nat} (v : BitVec w) (b : Byte) :
    (v ++ b).toNat = v.toNat * 256 + b.toNat := by
  rw [BitVec.toNat_append, ← Nat.shiftLeft_add_eq_or_of_lt b.isLt, Nat.shiftLeft_eq]

theorem valueOfOctets_toNat (oct : Lanes 6) : (valueOfOctets oct).toNat =
    (oct 0).toNat * 2 ^ 40 + (oct 1).toNat * 2 ^ 32 + (oct 2).toNat * 2 ^ 24 +
      (oct 3).toNat * 2 ^ 16 + (oct 4).toNat * 2 ^ 8 + (oct 5).toNat := by
  simp only [valueOfOctets, toNat_append_byte]
  omega

/-! ## The length test (R62) -/

theorem parseText_of_short (nonhex : Byte → Byte → Byte) (txt : TextIn) {len : Nat} (h : len < 17)
    (vd vh : Bool) (delim : Byte) : parseText nonhex txt len vd vh delim = .absent .tooShort := by
  simp [parseText, lengthFails, h]

theorem parseText_ne_tooShort (nonhex : Byte → Byte → Byte) (txt : TextIn) {len : Nat} (h : 17 ≤ len)
    (vd vh : Bool) (delim : Byte) : parseText nonhex txt len vd vh delim ≠ .absent .tooShort := by
  rw [parseText, if_neg (by simp [lengthFails, h])]
  repeat' split
  all_goals nofun

end Sys2Proof.Machine

namespace Sys2Proof.Proofs

open Sys2Proof.Machine

/-- Settles O21. -/
theorem valueIsTheSumOfOctets : Obligations.ValueIsTheSumOfOctets := fun oct =>
  ⟨valueOfOctets_toNat oct, (valueOfOctets oct).isLt, octetOf_valueOfOctets oct,
    dataOfValue_high (valueOfOctets oct) 88 le_rfl⟩

/-- Settles O16: the first test decides, and the later ones fail with other causes. -/
theorem lengthTestAlone : Obligations.LengthTestAlone := by
  intro nonhex nonhex' txt txt' vd vh vd' vh' delim delim' len
  refine ⟨fun short => ?_, fun long => parseText_ne_tooShort nonhex txt long vd vh delim⟩
  rw [parseText_of_short nonhex txt short, parseText_of_short nonhex' txt' short]
  exact ⟨rfl, rfl⟩

/-- Settles O19. -/
theorem hexSetIsTheTwentyTwo : Obligations.HexSetIsTheTwentyTwo :=
  fun b => ⟨isHex_iff b, isHex_eq_folded b⟩

/-- Settles O20: both values are nibbles, so 8 bits hold the sum. -/
theorem octetOfTwoHexDigits : Obligations.OctetOfTwoHexDigits := by
  intro nonhex hi lo hhi hlo
  have hv := hexValue_lt hi hhi
  have lv := hexValue_lt lo hlo
  refine ⟨by omega, by omega, ?_⟩
  rw [octetOfDigits_of_isHex nonhex hhi hlo, BitVec.toNat_ofNat, Nat.mod_eq_of_lt (by omega)]

end Sys2Proof.Proofs
end

section
/-! The stages of PARSE (40_parse.md R72 to R83), each as the functional rule it stands for. -/

namespace Sys2Proof.Machine

/-! ## The tests (R74, R78) -/

/-- De Morgan over lanes: a stage asks that all lanes pass, a functional rule whether any fails. -/
theorem not_allLanes {n : Nat} (p : Fin n → Bool) : (!allLanes n p) = anyLane n fun i => !p i := by
  induction n with
  | zero => rfl
  | succ n ih => rw [allLanes, anyLane, Bool.not_and, ih]

theorem stageGather_delim (txt : TextIn) (j : Fin 5) :
    stageGather (stageLoad txt) (j.castLE (by decide)) = delimsOf txt j := by
  simp [stageGather, stageLoad, memRead, delimsOf, delimPos]

theorem stageDelimFail_load (vd : Bool) (txt : TextIn) (delim : Byte) :
    stageDelimFail vd (stageLoad txt) delim = (vd && delimitersFail txt delim) := by
  simp only [stageDelimFail, stageDelimOk, stageCompare, broadcast, stageGather_delim, not_allLanes,
    delimitersFail, bne]

/-- `ISHEX` is the hex set of the lane's own byte (R78). -/
theorem stageIsHex_eq (h : Lanes 16) (i : Fin 16) : stageIsHex h i = isHex (h i) :=
  (isHex_eq_folded (h i)).symm

/-- The permutation of R75 brings digit `i` to lane `i`: lanes 0 to 10 from the low half, lane 11 from the
high half, each merged with a zero of the other. -/
theorem stageDigits_load (txt : TextIn) (i : Fin 12) :
    stageDigits (stageLoad txt) (i.castLE (by decide)) = digitsOf txt i := by
  rcases lt_or_ge i.val 11 with low | high
  · have other : i.val ≠ 11 := by omega
    simp [stageDigits, mergeLanes, shuffle, dedelimitLow, dedelimitHigh, low, other, lowHalf, stageLoad,
      memRead, digitsOf, digitPos]
  · obtain rfl : i = 11 := by omega
    exact BitVec.zero_or

theorem stageHexFail_load (vh : Bool) (txt : TextIn) :
    stageHexFail vh (stageDigits (stageLoad txt)) = (vh && hexDigitsFail txt) := by
  simp only [stageHexFail, stageHexOk, stageIsHex_eq, stageDigits_load, not_allLanes, hexDigitsFail]

/-! ## The octets (R79 to R81) -/

/-- The formula of R79 is the informative one of R71, lane by lane. -/
theorem nibbleFormula_eq (h : Lanes 16) (i : Fin 16) : nibbleFormula h i = nibbleRef (h i) := by
  have letter : stageFold h i - 0x41 + 10 = (h i &&& 0xDF) - 0x37 := by
    rw [stageFold]
    bv_omega
  rw [nibbleFormula, letter]
  rfl

theorem stageNibble_of_isHex {h : Lanes 16} {i : Fin 16} (hi : isHex (h i) = true) :
    stageNibble h i = nibbleRef (h i) := by
  rw [stageNibble, stageIsHex_eq, if_pos hi, nibbleFormula_eq]

/-- The low byte of a 16-bit lane of stage 9. -/
theorem stagePair_low (nib : Lanes 16) (k : Fin 8) :
    (stagePair nib k).setWidth 8 = 16 * nib ⟨2 * k, by omega⟩ + nib ⟨2 * k + 1, by omega⟩ := by
  rw [BitVec.mul_comm]
  simp [stagePair, BitVec.setWidth_add, BitVec.setWidth_mul]

/-- Stage 10 holds the octets of R60 step 5. Of two hex characters both are the reference octet; otherwise
both are the open parameter, and the free nibble of a non-hex lane is not passed on. -/
theorem stageCompact_octet (nonhex : Byte → Byte → Byte) (h : Lanes 16) (k : Fin 6) :
    stageCompact nonhex h (k.castLE (by decide)) =
      octetOfDigits nonhex (h ⟨2 * k, by omega⟩) (h ⟨2 * k + 1, by omega⟩) := by
  have low : (k.castLE (by decide) : Fin 16).val < 6 := k.isLt
  rw [stageCompact, dif_pos low]
  simp only [stageIsHex_eq, Fin.val_castLE]
  split
  next both =>
    obtain ⟨hhi, hlo⟩ := Bool.and_eq_true_iff.mp both
    rw [octetOfDigits_eq_ref nonhex hhi hlo, stagePair_low, stageNibble_of_isHex hhi,
      stageNibble_of_isHex hlo, nonhexOctetRef]
  next other => rw [octetOfDigits, if_neg other]

theorem stageCompact_load (nonhex : Byte → Byte → Byte) (txt : TextIn) (k : Fin 6) :
    stageCompact nonhex (stageDigits (stageLoad txt)) (k.castLE (by decide)) = octetsOf nonhex txt k := by
  have high := stageDigits_load txt ⟨2 * k, by omega⟩
  have low := stageDigits_load txt ⟨2 * k + 1, by omega⟩
  simp only [Fin.castLE_mk] at high low
  rw [stageCompact_octet, high, low]
  rfl

/-! ## The value (R82) -/

theorem lane_valueOfOctets (oct : Lanes 6) (i : Fin 6) :
    lane (valueOfOctets oct) i = oct ⟨5 - i, by omega⟩ := by
  have e := octetOf_eq_lane (valueOfOctets oct) ⟨5 - i, by omega⟩
  rw [octetOf_valueOfOctets, Nat.sub_sub_self (by omega)] at e
  exact e.symm

/-- Extract, swap and shift put lanes 0 to 5 of `O` in the order of R69; lanes 6 and 7 fall off. -/
theorem stageExtract_value (o : Lanes 16) :
    (stageSwapShift (stageExtract o)).extractLsb' 0 48 =
      valueOfOctets fun k => o (k.castLE (by decide)) := by
  refine eq_of_lanes (n := 6) fun i => ?_
  rw [stageSwapShift, stageExtract, ← BitVec.setWidth_eq_extractLsb' (by decide),
    lane_setWidth _ _ _ (by omega), lane_bswap64_shift _ _ i.isLt, lane_valueOfOctets]
  exact lane_ofLanes (n := 8) _ ⟨5 - i, by omega⟩

theorem stageValue_load (nonhex : Byte → Byte → Byte) (txt : TextIn) :
    stageValue nonhex (stageDigits (stageLoad txt)) = valueOfOctets (octetsOf nonhex txt) := by
  rw [stageValue, stageExtract_value]
  exact congrArg valueOfOctets (funext (stageCompact_load nonhex txt))

/-! ## The result (R83) -/

theorem parseByStages_eq_parseText (nonhex : Byte → Byte → Byte) (txt : TextIn) (len : Nat)
    (vd vh : Bool) (delim : Byte) :
    parseByStages nonhex txt len vd vh delim = parseText nonhex txt len vd vh delim := by
  simp only [parseByStages, stageDelimFail_load, stageHexFail_load, stageValue_load]
  rfl

end Sys2Proof.Machine

namespace Sys2Proof.Proofs

open Sys2Proof.Machine

/-- Settles O24, stage by stage. -/
theorem parseStagesAgree : Obligations.ParseStagesAgree := fun nonhex txt len vd vh delim =>
  ⟨rfl, stageDelimFail_load vd txt delim, stageHexFail_load vh txt, stageDigits_load txt,
    stageCompact_load nonhex txt, parseByStages_eq_parseText nonhex txt len vd vh delim⟩

/-- Settles O26: the nibble formula is `nibf` of R71 and the pair formula `NONHEX_OCTET_ref` of two nibbles. -/
theorem referenceOctetIsTheStageFormula : Obligations.ReferenceOctetIsTheStageFormula := by
  intro h k
  refine ⟨?_, octetOfDigits_ref _ _⟩
  rw [stagePair_low, nibbleFormula_eq, nibbleFormula_eq]
  rfl

end Sys2Proof.Proofs
end

section
/-! The hex digit tables (41_format.md R85), and the stages of FORMAT (R87 to R96), each as the functional
rule it stands for. -/

namespace Sys2Proof.Machine

/-! ## The octets in their lanes (R87, R88) -/

/-- The reorder and the broadcast bring octet `k` of `V[47:0]` to lane `k`. -/
theorem stageSpreadOctets_reorder (v : Container) (k : Fin 6) :
    stageSpreadOctets (stageReorder v) (k.castLE (by decide)) = octetOf (maskedValue v) k := by
  have inGroup : k.val % 8 = k := by omega
  rw [stageSpreadOctets, Fin.val_castLE, inGroup, stageReorder, lane_bswap64_shift_value]

/-! ## The characters of the octets (R89, R90) -/

/-- Mask and shift leave the high nibble, over all bytes. -/
theorem highNibble_of_mask : ∀ b : Byte, ((b &&& 0xF0) >>> 4).setWidth 4 = highNibble b := by decide

theorem lowNibble_of_mask : ∀ b : Byte, (b &&& 0x0F).setWidth 4 = lowNibble b := by decide

theorem stageLookup_high (uc : Bool) (x : Lanes 16) (i : Fin 16) :
    stageLookup uc (stageHigh x) i = hexChar uc (highNibble (x i)) := by
  rw [stageLookup, stageHigh, highNibble_of_mask]

theorem stageLookup_low (uc : Bool) (x : Lanes 16) (i : Fin 16) :
    stageLookup uc (stageLow x) i = hexChar uc (lowNibble (x i)) := by
  rw [stageLookup, stageLow, lowNibble_of_mask]

/-! ## The digit stream (R91) -/

/-- An even lane of `D` is a high digit, merged with the zero the low digits leave there. -/
theorem stageDense_even (hc lc : Lanes 16) (k : Fin 6) :
    stageDense hc lc ⟨2 * k, by omega⟩ = hc (k.castLE (by decide)) := by
  have digit : 2 * k.val < 12 := by omega
  simp [stageDense, mergeLanes, shuffle, interleaveHigh, interleaveLow, digit, Fin.castLE]

/-- An odd lane of `D` is a low digit, merged with the zero the high digits leave there. -/
theorem stageDense_odd (hc lc : Lanes 16) (k : Fin 6) :
    stageDense hc lc ⟨2 * k + 1, by omega⟩ = lc (k.castLE (by decide)) := by
  have digit : 2 * k.val + 1 < 12 := by omega
  have half : (2 * k.val + 1) / 2 = k := by omega
  simp [stageDense, mergeLanes, shuffle, interleaveHigh, interleaveLow, digit, half, Fin.castLE]

theorem digitStream_even (v : Container) (uc : Bool) (k : Fin 6) :
    digitStream v uc ⟨2 * k, by omega⟩ = hexChar uc (highNibble (octetOf (maskedValue v) k)) := by
  rw [digitStream, stageDense_even, stageLookup_high, stageSpreadOctets_reorder]

theorem digitStream_odd (v : Container) (uc : Bool) (k : Fin 6) :
    digitStream v uc ⟨2 * k + 1, by omega⟩ = hexChar uc (lowNibble (octetOf (maskedValue v) k)) := by
  rw [digitStream, stageDense_odd, stageLookup_low, stageSpreadOctets_reorder]

/-! ## The text (R92 to R94) -/

/-- The select of stage 6 takes a delimiter or a digit as R84 does: it never takes a don't-care lane. -/
theorem stageInsert_digitStream (v : Container) (delim : Byte) (uc : Bool) (i : Fin 16) :
    stageInsert (stageSpread (digitStream v uc)) delim i =
      formatText v delim uc (i.castLE (by decide)) := by
  have high := digitStream_even v uc ⟨i / 3, by omega⟩
  have low := digitStream_odd v uc ⟨i / 3, by omega⟩
  have place : i.val % 3 = 0 ∨ i.val % 3 = 1 ∨ i.val % 3 = 2 := by omega
  rcases place with first | second | third
  · simp [stageInsert, delimiterMask, stageSpread, formatText, first, high]
  · simp [stageInsert, delimiterMask, stageSpread, formatText, second, low]
  · simp [stageInsert, delimiterMask, broadcast, formatText, third]

/-- The two stores write the 16 bytes of the register and then one byte past them, and leave nothing of
what `OUT` held before. -/
theorem stageLast_stageStore (out : TextOut) (o16 d : Lanes 16) (i : Fin 17) :
    stageLast (stageStore out o16) d i = if h : i.val < 16 then o16 ⟨i, h⟩ else d 11 := by
  rcases lt_or_ge i.val 16 with inside | last
  · simp [stageLast, stageStore, memWrite, inside, inside.not_ge]
  · simp [stageLast, memWrite, last, last.not_gt, i.isLt]

/-- Stages 7 and 8 over the digit stream give the text: offset 16 holds the low digit of octet 5. -/
theorem formatByStages_eq_formatText (v : Container) (delim : Byte) (uc : Bool) :
    formatByStages v delim uc = (formatText v delim uc, 17) := by
  refine Prod.ext (funext fun i => (stageLast_stageStore ..).trans ?_) rfl
  split
  next inside => exact stageInsert_digitStream v delim uc ⟨i, inside⟩
  next last =>
    obtain rfl : i = 16 := by omega
    exact (digitStream_odd v uc 5).trans (formatText_low v delim uc 5).symm

end Sys2Proof.Machine

namespace Sys2Proof.Proofs

open Sys2Proof.Machine

/-- Settles O25, stage by stage; the count of stage 9 is a constant. -/
theorem formatStagesAgree : Obligations.FormatStagesAgree :=
  formatByStages_eq_formatText

/-- Settles O22: the two rows by evaluation, and the reading back for every entry. -/
theorem hexTables : Obligations.HexTables :=
  ⟨rfl, rfl, hexValue_hexChar⟩

end Sys2Proof.Proofs
end

section
/-! The laws of the two operations together (45_properties.md R97 to R103): where the digits and the
delimiters of a text stand, what PARSE's answer depends on, and that FORMAT and PARSE undo each other. -/

namespace Sys2Proof.Machine

/-! ## The digits and the delimiters of a text (20_memory.md R30) -/

/-- Every digit is the high or the low digit of an octet. -/
theorem forall_digit {P : Fin 12 → Prop} (high : ∀ k : Fin 6, P ⟨2 * k, by omega⟩)
    (low : ∀ k : Fin 6, P ⟨2 * k + 1, by omega⟩) (i : Fin 12) : P i := by
  rcases Nat.mod_two_eq_zero_or_one i with even | odd
  · have hi : i = ⟨2 * (i / 2), by omega⟩ := Fin.ext (by simp only; omega)
    exact hi ▸ high ⟨i / 2, by omega⟩
  · have hi : i = ⟨2 * (i / 2) + 1, by omega⟩ := Fin.ext (by simp only; omega)
    exact hi ▸ low ⟨i / 2, by omega⟩

/-- Every offset of the text holds a digit or a delimiter. -/
theorem forall_offset {P : Fin 17 → Prop} (digit : ∀ i, P (digitPos i)) (delimiter : ∀ j, P (delimPos j))
    (i : Fin 17) : P i := by
  have place : ∀ i : Fin 17, (∃ d, i = digitPos d) ∨ ∃ j, i = delimPos j := by decide
  rcases place i with ⟨d, rfl⟩ | ⟨j, rfl⟩
  · exact digit d
  · exact delimiter j

theorem digitPos_high (k : Fin 6) : digitPos ⟨2 * k, by omega⟩ = ⟨3 * k, by omega⟩ :=
  Fin.ext (by simp only [digitPos]; omega)

theorem digitPos_low (k : Fin 6) : digitPos ⟨2 * k + 1, by omega⟩ = ⟨3 * k + 1, by omega⟩ :=
  Fin.ext (by simp only [digitPos]; omega)

theorem highDigit_digitsOf (txt : TextIn) (k : Fin 6) :
    highDigit (digitsOf txt) k = txt ⟨3 * k, by omega⟩ := by
  rw [highDigit, digitsOf, digitPos_high]; rfl

theorem lowDigit_digitsOf (txt : TextIn) (k : Fin 6) :
    lowDigit (digitsOf txt) k = txt ⟨3 * k + 1, by omega⟩ := by
  rw [lowDigit, digitsOf, digitPos_low]; rfl

theorem delimsOf_update (txt : TextIn) (j : Fin 5) (b : Byte) :
    delimsOf (Function.update txt ⟨3 * j + 2, by omega⟩ b) j = b :=
  Function.update_self (β := fun _ => Byte) ..

/-- The two characters of octet `k` stand at offsets `3k` and `3k+1`, of any text. -/
theorem octetsOf_apply (nonhex : Byte → Byte → Byte) (txt : TextIn) (k : Fin 6) :
    octetsOf nonhex txt k =
      octetOfDigits nonhex (txt ⟨3 * k, by omega⟩) (txt ⟨3 * k + 1, by omega⟩) := by
  rw [octetsOf, highDigit_digitsOf, lowDigit_digitsOf]

/-! ## What PARSE's answer depends on (R101, R103) -/

theorem delimitersFail_congr {txt txt' : TextIn} (h : ∀ j, delimsOf txt' j = delimsOf txt j)
    (delim : Byte) : delimitersFail txt' delim = delimitersFail txt delim := by
  simp only [delimitersFail, h]

theorem hexDigitsFail_congr {txt txt' : TextIn}
    (h : ∀ i, isHex (digitsOf txt' i) = isHex (digitsOf txt i)) :
    hexDigitsFail txt' = hexDigitsFail txt := by
  simp only [hexDigitsFail, h]

theorem octetsOf_congr (nonhex : Byte → Byte → Byte) {txt txt' : TextIn}
    (h : ∀ i, digitsOf txt' i = digitsOf txt i) : octetsOf nonhex txt' = octetsOf nonhex txt := by
  unfold octetsOf
  rw [funext h]

/-- PARSE sees of a request only what each of its tests says, and the octets. -/
theorem parseText_congr {nonhex : Byte → Byte → Byte} {txt txt' : TextIn} {len len' : Nat} {vd vh : Bool}
    {delim delim' : Byte} (hlen : lengthFails len' = lengthFails len)
    (hdelim : (vd && delimitersFail txt' delim') = (vd && delimitersFail txt delim))
    (hhex : hexDigitsFail txt' = hexDigitsFail txt) (hoct : octetsOf nonhex txt' = octetsOf nonhex txt) :
    parseText nonhex txt' len' vd vh delim' = parseText nonhex txt len vd vh delim := by
  simp only [parseText, hlen, hdelim, hhex, hoct]

/-- Of the text, the hex test and the octets see the 12 digit bytes only. -/
theorem parseText_congr_of_digits {nonhex : Byte → Byte → Byte} {txt txt' : TextIn} {len len' : Nat}
    {vd vh : Bool} {delim delim' : Byte} (hlen : lengthFails len' = lengthFails len)
    (hdelim : (vd && delimitersFail txt' delim') = (vd && delimitersFail txt delim))
    (hdigits : ∀ i, digitsOf txt' i = digitsOf txt i) :
    parseText nonhex txt' len' vd vh delim' = parseText nonhex txt len vd vh delim :=
  parseText_congr hlen hdelim (hexDigitsFail_congr fun i => by rw [hdigits i])
    (octetsOf_congr nonhex hdigits)

theorem lengthFails_eq_false {len : Nat} (h : 17 ≤ len) : lengthFails len = false := by
  simp [lengthFails, h]

/-- The delimiter test fails exactly on a delimiter byte that differs from `DELIM`, before the hex test. -/
theorem parseText_eq_delimiterMismatch_iff (nonhex : Byte → Byte → Byte) (txt : TextIn) {len : Nat}
    (h : 17 ≤ len) (vh : Bool) (delim : Byte) :
    parseText nonhex txt len true vh delim = .absent .delimiterMismatch ↔ ∃ j, delimsOf txt j ≠ delim := by
  rw [← delimitersFail_iff, parseText, lengthFails_eq_false h, Bool.true_and, if_neg Bool.false_ne_true]
  cases delimitersFail txt delim with
  | true => simp
  | false => cases vh && hexDigitsFail txt <;> simp

/-! ## The case of letters (R102) -/

/-- Of a letter the hex value sees only the byte with bit 0x20 cleared, checked on every byte. -/
theorem hexValue_of_isHexLetter :
    ∀ b : Byte, isHexLetter b = true → hexValue b = (b &&& 0xDF).toNat - 0x37 := by decide +kernel

theorem isHex_of_isHexLetter {b : Byte} (h : isHexLetter b = true) : isHex b = true := by
  rw [isHex, Bool.or_assoc]
  exact Bool.or_eq_true_iff.mpr (.inr h)

theorem isHex_of_sameButForCase {a b : Byte} (h : sameButForCase a b) : isHex a = isHex b := by
  rcases h with rfl | ⟨ha, hb, _⟩
  · rfl
  · rw [isHex_of_isHexLetter ha, isHex_of_isHexLetter hb]

theorem hexValue_of_sameButForCase {a b : Byte} (h : sameButForCase a b) : hexValue a = hexValue b := by
  rcases h with rfl | ⟨ha, hb, fold⟩
  · rfl
  · rw [hexValue_of_isHexLetter a ha, hexValue_of_isHexLetter b hb, fold]

/-- The case of the two characters of an octet does not matter where both are hex characters. -/
theorem octetOfDigits_of_sameButForCase (nonhex : Byte → Byte → Byte) {hi hi' lo lo' : Byte}
    (hhi : sameButForCase hi' hi) (hlo : sameButForCase lo' lo) (hex : isHex hi = true)
    (hex' : isHex lo = true) : octetOfDigits nonhex hi' lo' = octetOfDigits nonhex hi lo := by
  rw [octetOfDigits_of_isHex nonhex hex hex', octetOfDigits_of_isHex nonhex
    ((isHex_of_sameButForCase hhi).trans hex) ((isHex_of_sameButForCase hlo).trans hex'),
    hexValue_of_sameButForCase hhi, hexValue_of_sameButForCase hlo]

/-- The two tables differ in the letters only, checked on every nibble. -/
theorem hexChar_ne_iff : ∀ n : BitVec 4, hexChar true n ≠ hexChar false n ↔ 10 ≤ n.toNat := by decide

/-- FORMAT's character for the value of a hex character is that character in FORMAT's case, checked on
every byte. -/
theorem hexChar_hexValue :
    ∀ (uc : Bool) (b : Byte), isHex b = true → hexChar uc (BitVec.ofNat 4 (hexValue b)) = inCase uc b := by
  decide +kernel

/-! ## The value and its octets (R32) -/

/-- A 48-bit value is the value of its octets. -/
theorem valueOfOctets_octetOf (m : MacValue) : valueOfOctets (octetOf m) = m := by
  refine eq_of_lanes (n := 6) fun i => ?_
  rw [lane_valueOfOctets, octetOf_eq_lane]
  congr 1
  simp only
  omega

/-- The nibbles of an octet of two hex characters are their values. -/
theorem highNibble_octetOfDigits (nonhex : Byte → Byte → Byte) {hi lo : Byte} (hhi : isHex hi = true)
    (hlo : isHex lo = true) :
    highNibble (octetOfDigits nonhex hi lo) = BitVec.ofNat 4 (hexValue hi) := by
  have hv := hexValue_lt hi hhi
  have lv := hexValue_lt lo hlo
  apply BitVec.eq_of_toNat_eq
  rw [octetOfDigits_of_isHex nonhex hhi hlo, highNibble, BitVec.extractLsb'_toNat,
    Nat.shiftRight_eq_div_pow, BitVec.toNat_ofNat, BitVec.toNat_ofNat]
  omega

theorem lowNibble_octetOfDigits (nonhex : Byte → Byte → Byte) {hi lo : Byte} (hhi : isHex hi = true)
    (hlo : isHex lo = true) :
    lowNibble (octetOfDigits nonhex hi lo) = BitVec.ofNat 4 (hexValue lo) := by
  have lv := hexValue_lt lo hlo
  apply BitVec.eq_of_toNat_eq
  rw [octetOfDigits_of_isHex nonhex hhi hlo, lowNibble, BitVec.extractLsb'_toNat,
    Nat.shiftRight_eq_div_pow, BitVec.toNat_ofNat, BitVec.toNat_ofNat]
  omega

/-! ## FORMAT (R97, R102) -/

/-- FORMAT's mask takes the widened value back out of its container. -/
@[simp] theorem maskedValue_setWidth (m : MacValue) : maskedValue (m.setWidth 64) = m := by
  rw [maskedValue, BitVec.extractLsb'_setWidth_of_le (by decide), BitVec.extractLsb'_eq_self]

/-- FORMAT sees the low 48 bits of the container only. -/
theorem formatText_congr {v v' : Container} (h : maskedValue v = maskedValue v') (delim : Byte) (uc : Bool) :
    formatText v delim uc = formatText v' delim uc := by
  unfold formatText
  rw [h]

section
variable (v : Container) (delim : Byte) (uc : Bool)

theorem formatText_digitPos_high (k : Fin 6) : formatText v delim uc (digitPos ⟨2 * k, by omega⟩) =
    hexChar uc (highNibble (octetOf (maskedValue v) k)) := by
  rw [digitPos_high, formatText_high]

theorem formatText_digitPos_low (k : Fin 6) : formatText v delim uc (digitPos ⟨2 * k + 1, by omega⟩) =
    hexChar uc (lowNibble (octetOf (maskedValue v) k)) := by
  rw [digitPos_low, formatText_low]

/-- FORMAT writes hex characters in the digit positions. -/
theorem isHex_formatText : ∀ i, isHex (formatText v delim uc (digitPos i)) = true :=
  forall_digit (fun k => by rw [formatText_digitPos_high, isHex_hexChar])
    fun k => by rw [formatText_digitPos_low, isHex_hexChar]

/-- The two characters FORMAT writes for an octet read back as that octet. -/
theorem octetOfDigits_formatText (nonhex : Byte → Byte → Byte) (k : Fin 6) :
    octetOfDigits nonhex (formatText v delim uc ⟨3 * k, by omega⟩)
      (formatText v delim uc ⟨3 * k + 1, by omega⟩) = octetOf (maskedValue v) k := by
  rw [formatText_high, formatText_low, octetOfDigits_hexChar]

end

/-- PARSE of what FORMAT writes gives `V[47:0]` back, with the same `DELIM` or with none looked at. -/
theorem parseText_of_formatText (nonhex : Byte → Byte → Byte) {v : Container} {delim : Byte} {uc : Bool}
    {txt : TextIn} {len : Nat} (hlen : 17 ≤ len)
    (htxt : ∀ i : Fin 17, txt (i.castLE (by decide)) = formatText v delim uc i) (vd vh : Bool)
    (delim' : Byte) (hdelim : vd = true → delim' = delim) :
    parseText nonhex txt len vd vh delim' = .present (maskedValue v) := by
  have octets : octetsOf nonhex txt = octetOf (maskedValue v) := funext fun k =>
    calc octetsOf nonhex txt k
      _ = octetOfDigits nonhex (txt ⟨3 * k, by omega⟩) (txt ⟨3 * k + 1, by omega⟩) :=
        octetsOf_apply nonhex txt k
      _ = octetOfDigits nonhex (formatText v delim uc ⟨3 * k, by omega⟩)
          (formatText v delim uc ⟨3 * k + 1, by omega⟩) :=
        congrArg₂ (octetOfDigits nonhex) (htxt ⟨3 * k, by omega⟩) (htxt ⟨3 * k + 1, by omega⟩)
      _ = octetOf (maskedValue v) k := octetOfDigits_formatText v delim uc nonhex k
  have delims : ∀ j, delimsOf txt j = delim := fun j =>
    (htxt (delimPos j)).trans (formatText_delim v delim uc j)
  have digits : ∀ i, isHex (digitsOf txt i) = true := fun i =>
    (congrArg isHex (htxt (digitPos i))).trans (isHex_formatText v delim uc i)
  rw [parseText_of_passes hlen (fun hvd j => (delims j).trans (hdelim hvd).symm) fun _ => digits, octets,
    valueOfOctets_octetOf]

/-- FORMAT of the value of 12 hex digits writes them in its own case. -/
theorem formatText_valueOfOctets (nonhex : Byte → Byte → Byte) {txt : TextIn}
    (hex : ∀ i, isHex (digitsOf txt i) = true) (delim : Byte) (uc : Bool) :
    ∀ i, formatText ((valueOfOctets (octetsOf nonhex txt)).setWidth 64) delim uc (digitPos i) =
      inCase uc (digitsOf txt i) := by
  refine forall_digit (fun k => ?high) (fun k => ?low)
  case high =>
    rw [formatText_digitPos_high, maskedValue_setWidth, octetOf_valueOfOctets, octetsOf, highDigit,
      lowDigit, highNibble_octetOfDigits nonhex (hex _) (hex _), hexChar_hexValue uc _ (hex _)]
  case low =>
    rw [formatText_digitPos_low, maskedValue_setWidth, octetOf_valueOfOctets, octetsOf, highDigit,
      lowDigit, lowNibble_octetOfDigits nonhex (hex _) (hex _), hexChar_hexValue uc _ (hex _)]

end Sys2Proof.Machine

namespace Sys2Proof.Proofs

open Sys2Proof.Machine

/-- Settles O15. -/
theorem shortInputRefused : Obligations.ShortInputRefused := by
  intro nonhex txt vd vh delim len
  exact ⟨fun short => parseText_of_short nonhex txt (by omega) vd vh delim,
    fun long _ => ⟨_, parseText_of_passes long nofun nofun⟩⟩

/-- Settles O17: the first two tests decide, and the second is off or reads the five bytes. -/
theorem delimiterValidation : Obligations.DelimiterValidation := by
  intro nonhex txt len vh delim long
  refine ⟨parseText_eq_delimiterMismatch_iff nonhex txt long vh delim, fun j b hb => ?altered,
    fun txt' delim' same => ?off⟩
  case altered =>
    exact (parseText_eq_delimiterMismatch_iff nonhex _ long vh delim).mpr
      ⟨j, by rwa [delimsOf_update]⟩
  case off =>
    refine parseText_congr_of_digits rfl rfl fun i => same _ fun j => ?_
    simp only [digitPos, Fin.val_castLE]
    omega

/-- Settles O18: with the first two tests passed the third decides; with it off PARSE gives the octets. -/
theorem hexValidation : Obligations.HexValidation := by
  intro nonhex txt len vd delim long hdelim
  refine ⟨⟨fun ⟨v, hv⟩ => ?refused, fun hex => ⟨_, parseText_of_passes long hdelim fun _ => hex⟩⟩,
    _, parseText_of_passes long hdelim nofun, fun k => ?octet⟩
  case refused =>
    obtain ⟨_, _, hex, _⟩ := passes_of_parseText hv
    exact hex rfl
  case octet => rw [octetOf_valueOfOctets, octetsOf_apply, octetOfDigits]

/-- Settles O27. -/
theorem roundTrip : Obligations.RoundTrip := by
  intro nonhex v delim uc txt len vh long htxt
  refine ⟨fun vd => parseText_of_formatText nonhex long htxt vd vh delim fun _ => rfl,
    fun delim' => parseText_of_formatText nonhex long htxt false vh delim' nofun, fun small => ?_⟩
  rw [BitVec.extractLsb'_toNat, Nat.shiftRight_zero, Nat.mod_eq_of_lt small]

/-- Settles O28: the value is that of the 12 hex digits, and the delimiter bytes are `DELIM`. -/
theorem reverseRoundTrip : Obligations.ReverseRoundTrip := by
  intro nonhex txt len delim v uc parsed
  obtain ⟨_, hdelim, hhex, rfl⟩ := passes_of_parseText parsed
  have digits := formatText_valueOfOctets nonhex (hhex rfl) delim uc
  have delims (w : Container) (j : Fin 5) : formatText w delim uc (delimPos j) = delimsOf txt j :=
    (formatText_delim w delim uc j).trans (hdelim rfl j).symm
  exact ⟨digits, delims _, fun inOwnCase =>
    forall_offset (fun i => (digits i).trans (inOwnCase i)) (delims _)⟩

/-- Settles O30: the tests and the octets see a hex character's value only. -/
theorem caseAndMasking : Obligations.CaseAndMasking := by
  refine ⟨fun nonhex txt txt' len vd vh delim sameDelims sameDigits pairs => ?_,
    fun v delim uc => formatText_congr (maskedValue_setWidth _) delim uc, hexChar_ne_iff,
    fun n => by rw [hexValue_hexChar, hexValue_hexChar]⟩
  refine parseText_congr rfl (by rw [delimitersFail_congr sameDelims])
    (hexDigitsFail_congr fun i => isHex_of_sameButForCase (sameDigits i)) (funext fun k => ?_)
  rcases pairs k with ⟨high, low⟩ | ⟨high, low⟩
  · rw [octetsOf, octetsOf, high, low]
  · exact octetOfDigits_of_sameButForCase nonhex (sameDigits _) (sameDigits _) high low

/-- Settles O32: the octets, and so the value, can be read back from the text. -/
theorem formatIsInjective : Obligations.FormatIsInjective := by
  intro delim uc v v' same
  have octets : octetOf v = octetOf v' := funext fun k => by
    have read := octetOfDigits_formatText (v.setWidth 64) delim uc Config.nonhexOctet k
    rw [same, octetOfDigits_formatText, maskedValue_setWidth, maskedValue_setWidth] at read
    exact read.symm
  rw [← valueOfOctets_octetOf v, octets, valueOfOctets_octetOf]

/-- Settles O29. -/
theorem outputLength : Obligations.OutputLength := by
  intro w uc delim data hd
  rw [respond_of_format (r := { cmd := w, data := data }) hd]
  exact ⟨rfl, rfl, List.length_ofFn⟩

/-- Settles O31: every byte that PARSE reads is among the first 17, and with `VD` = 0 it is a digit. -/
theorem parseReadsNothingElse : Obligations.ParseReadsNothingElse := by
  intro nonhex txt txt' len len' vd vh delim
  constructor
  · intro long long' same
    have sameDelims := delimitersFail_congr (fun j => same (delimPos j)) delim
    exact parseText_congr_of_digits ((lengthFails_eq_false long').trans (lengthFails_eq_false long).symm)
      (by rw [sameDelims]) fun i => same (digitPos i)
  · exact parseText_congr_of_digits rfl rfl

/-- Settles O33. -/
theorem validationOnlyRefuses : Obligations.ValidationOnlyRefuses := by
  intro nonhex txt len vd vh vd' vh' delim v present delimOff hexOff
  obtain ⟨long, hdelim, hhex, rfl⟩ := passes_of_parseText present
  exact parseText_of_passes long (fun on => hdelim (delimOff on)) fun on => hhex (hexOff on)

end Sys2Proof.Proofs
end

section
/-! Failures (60_exceptions.md R104 to R112): the three tests of PARSE are the conditions of `Cause`, so the
ghost cause of a request fixes its response's kind; and no edge of a run faults or refuses. -/

namespace Sys2Proof.Machine

/-! ## `Cause` and the result of PARSE (R106) -/

section
variable (nonhex : Byte → Byte → Byte) (txt : TextIn) (len : Nat) (vd vh : Bool) (delim : Byte)

/-- The tests of 40_parse.md R60 are the conditions of `Cause`, in the same order: with a cause PARSE is
absent with it, with none it answers the value of the octets. -/
theorem parseText_eq_elim_parseCause : parseText nonhex txt len vd vh delim =
    (parseCause txt len vd vh delim).elim (.present (valueOfOctets (octetsOf nonhex txt))) .absent := by
  simp only [parseText, parseCause, lengthFails, decide_eq_true_eq, Bool.and_eq_true, delimitersFail_iff,
    hexDigitsFail_iff]
  split_ifs <;> rfl

theorem parseText_eq_absent_iff (cause : FailureCause) :
    parseText nonhex txt len vd vh delim = .absent cause ↔ parseCause txt len vd vh delim = some cause := by
  rw [parseText_eq_elim_parseCause]
  cases parseCause txt len vd vh delim <;> simp

/-- `IllegalCommand` is a cause of the command word, never of PARSE (R104, R106). -/
theorem parseCause_ne_illegalCommand : parseCause txt len vd vh delim ≠ some .illegalCommand := fun h =>
  parseText_ne_illegalCommand Config.nonhexOctet txt len vd vh delim
    ((parseText_eq_absent_iff _ txt len vd vh delim _).mpr h)

end

/-! ## The cause of a request and its response (R105, R109) -/

theorem requestCause_of_format {r : Request} {uc : Bool} {delim : Byte}
    (h : decode r.cmd = .legal (.format uc delim)) : requestCause r = none := by
  simp [requestCause, h]

theorem requestCause_of_illegal {r : Request} {why : IllegalWord} (h : decode r.cmd = .illegal why) :
    requestCause r = some .illegalCommand := by
  simp [requestCause, h]

/-- The cause `IllegalCommand` is that of the illegal words, and of no other request. -/
theorem requestCause_eq_illegalCommand_iff (r : Request) :
    requestCause r = some .illegalCommand ↔ ∃ why, decode r.cmd = .illegal why := by
  refine ⟨fun hc => ?_, fun ⟨_, hd⟩ => requestCause_of_illegal hd⟩
  cases hd : decode r.cmd with
  | illegal why => exact ⟨why, rfl⟩
  | legal i =>
    cases i with
    | parse len vd vh delim =>
      rw [requestCause_of_parse hd] at hc
      exact absurd hc (parseCause_ne_illegalCommand _ _ _ _ _)
    | format uc delim => simp [requestCause_of_format hd] at hc

/-- A request with a cause is answered by raising it (R107). -/
theorem respond_of_requestCause {r : Request} {cause : FailureCause} (h : requestCause r = some cause) :
    respond r = raiseResponse cause := by
  cases hd : decode r.cmd with
  | illegal why =>
    obtain rfl : FailureCause.illegalCommand = cause := by simpa [requestCause_of_illegal hd] using h
    exact respond_of_illegal hd
  | legal i =>
    cases i with
    | parse len vd vh delim =>
      rw [requestCause_of_parse hd] at h
      rw [respond_of_parse hd, parseResponse, (parseText_eq_absent_iff _ _ _ _ _ _ _).mpr h, answerParse]
    | format uc delim => simp [requestCause_of_format hd] at h

/-- A request without a cause is answered OK: its PARSE is present, or it is a FORMAT (R108). -/
theorem respond_status_of_no_requestCause {r : Request} (h : requestCause r = none) :
    (respond r).status = .ok := by
  cases hd : decode r.cmd with
  | illegal why => simp [requestCause_of_illegal hd] at h
  | legal i =>
    cases i with
    | parse len vd vh delim =>
      rw [requestCause_of_parse hd] at h
      rw [respond_of_parse hd, parseResponse, parseText_eq_elim_parseCause, h]
      rfl
    | format uc delim =>
      rw [respond_of_format hd]
      rfl

/-- Of the cause, the status OK tells exactly that there is none. -/
theorem respond_status_eq_ok_iff (r : Request) : (respond r).status = .ok ↔ requestCause r = none := by
  refine ⟨fun hok => ?_, respond_status_of_no_requestCause⟩
  cases hc : requestCause r with
  | none => rfl
  | some cause =>
    rw [respond_of_requestCause hc] at hok
    exact absurd hok (statusOfCause_ne_ok cause)

theorem presentFlag_iff (rsp : Response) : presentFlag rsp = true ↔ rsp.status = .ok := beq_iff_eq

end Sys2Proof.Machine

namespace Sys2Proof.Proofs

open Sys2Proof.Machine

/-- Settles O12, by induction on the number of edges. -/
theorem runsNeverStop : Obligations.RunsNeverStop := by
  intro k
  induction k with
  | zero => exact fun _ => rfl
  | succ k ih => exact fun s => (run_succ (M := core) (step_eq_afterStep s)).trans (ih (afterStep s))

/-- Settles O13: PARSE is absent with the cause of R106, whose conditions are those of `parseCause` with the
offsets of the text's bytes written out. -/
theorem absentExactlyWhenACause : Obligations.AbsentExactlyWhenACause := by
  intro nonhex txt len vd vh delim
  have absent_iff := parseText_eq_absent_iff nonhex txt len vd vh delim
  refine ⟨absent_iff, ?_, rfl⟩
  rw [Option.ne_none_iff_exists']
  exact exists_congr absent_iff

/-- Settles O14: a cause is raised, and what is raised differs only between `IllegalCommand` and the rest. -/
theorem causesAreIndistinguishable : Obligations.CausesAreIndistinguishable := fun r =>
  ⟨fun _ hc parseFailure =>
      (respond_of_requestCause hc).trans (raiseResponse_of_ne_illegalCommand parseFailure),
    respond_of_requestCause, respond_status_of_no_requestCause,
    fun _ _ _ _ _ => (presentFlag_iff _).trans (respond_status_eq_ok_iff r),
    (requestCause_eq_illegalCommand_iff r).symm⟩

end Sys2Proof.Proofs
end

section
/-! Reset, the latencies and the duty to hold a request stable (70_reset_and_hazards.md R120 to R127): what
the queue's waits and the record of the presented request are after any number of edges. -/

namespace Sys2Proof.Machine

/-! ## Latencies (R126) -/

theorem latency_of_format {w : Command} {uc : Bool} {delim : Byte}
    (h : decode w = .legal (.format uc delim)) : latency w = Config.latFormat := by
  simp [latency, h]

theorem latency_of_parse {w : Command} {len : Nat} {vd vh : Bool} {delim : Byte}
    (h : decode w = .legal (.parse len vd vh delim)) : latency w = Config.latParse := by
  simp [latency, h]

theorem latency_of_illegal {w : Command} {why : IllegalWord} (h : decode w = .illegal why) :
    latency w = Config.latParse := by
  simp [latency, h]

theorem rowMatches_format_iff (w : Command) :
    rowMatches rowFormat w = true ↔ fieldRsvd w = 0#5 ∧ fieldOpc w = opcFormat :=
  (rowMatches_iff rowFormat w).trans (and_rowMask_eq_format_iff w)

/-- An edge that keeps R126 and accepts gives the accepted request its latency as its wait. -/
theorem keepsLatency.unitWait_of_accept {s : State} (h : keepsLatency s) (hr : (nextInput s).rst = false)
    (ha : ((nextInput s).reqValid && reqReady s) = true) :
    (nextInput s).unitWait = latency (captured s (nextInput s)).cmd :=
  h _ (by simp [acceptedNow_of_accept hr ha])

/-! ## The waits in the queue -/

/-- With a request in the queue, a response is valid exactly when the oldest one's wait is over. -/
theorem rspValid_of_cons {s : State} {e : Entry} {rest : List Entry} (hq : s.queue = e :: rest) :
    rspValid s = true ↔ e.wait = 0 := by
  simp [rspValid, hq]

/-- An edge without reset that finds an empty queue and accepts leaves just the accepted request. -/
theorem afterStep_queue_of_accept_first {s : State} (hr : (nextInput s).rst = false)
    (hq : s.queue = []) (ha : ((nextInput s).reqValid && reqReady s) = true) :
    (afterStep s).queue = [{ req := captured s (nextInput s), wait := (nextInput s).unitWait }] := by
  simp [afterStep_queue hr, keptQueue, hq, acceptedNow_of_accept hr ha]

/-- While the oldest request's wait is not over, it stays the oldest and its wait counts the edges down. -/
theorem afterSteps_of_waiting (k w : Nat) {s : State} {e : Entry} {rest : List Entry}
    (hr : noResetFor k s) (hq : s.queue = e :: rest) (hw : e.wait = w + k) :
    ∃ rest', (afterSteps k s).queue = { req := e.req, wait := w } :: rest' := by
  induction k generalizing s e rest with
  | zero => exact ⟨rest, by rw [afterSteps, hq, ← Nat.add_zero w, ← hw]⟩
  | succ k ih =>
    obtain ⟨_, _, hq'⟩ := afterStep_of_waiting hr.head hq hw
    exact ih (e := { req := e.req, wait := w + k }) hr.tail hq' rfl

/-- What an edge leaves in the queue was in it before, with one edge less to wait. -/
theorem mem_keptQueue {s : State} {e : Entry} (h : e ∈ keptQueue s) :
    ∃ e₀ ∈ s.queue, e = { req := e₀.req, wait := e₀.wait - 1 } := by
  obtain ⟨e₀, h₀, rfl⟩ := List.mem_map.mp h
  exact ⟨e₀, List.mem_of_mem_drop h₀, rfl⟩

/-- The requests an edge leaves in the queue wait no longer than before, and one it accepts waits its
latency. -/
theorem State.InTime.afterStep {s : State} (h : s.InTime) (hl : keepsLatency s) :
    (Machine.afterStep s).InTime := by
  intro e he
  cases hr : (nextInput s).rst with
  | true => simp [afterStep_of_reset hr] at he
  | false =>
    rw [afterStep_queue hr] at he
    rcases List.mem_append.mp he with hkept | hnew
    · obtain ⟨e₀, h₀, rfl⟩ := mem_keptQueue hkept
      exact (Nat.sub_le _ _).trans (h e₀ h₀)
    · obtain ⟨r, hmem, rfl⟩ := List.mem_map.mp hnew
      exact (hl r hmem).le

/-! ## A request changed before its Accept (R124) -/

/-- An input of the next `k + 1` edges is that of the coming edge or of the `k` edges after it. -/
theorem eq_nextInput_or_mem_afterStep {s : State} {k : Nat} {pins : EdgeInput}
    (h : pins ∈ s.stimulus.take (k + 1)) :
    pins = nextInput s ∨ pins ∈ (afterStep s).stimulus.take k := by
  rw [afterStep_stimulus]
  cases hs : s.stimulus with
  | nil => simp [hs] at h
  | cons first rest => simpa [hs, nextInput] using h

/-- The duty to hold the request `r` is broken, or one of the next `k` edges breaks it. -/
def BrokenWithin (k : Nat) (r : Request) (s : State) : Prop :=
  s.presented = .changed ∨
    (s.presented = .steady r ∧ ∃ pins ∈ s.stimulus.take k, pinsRequest pins ≠ r)

theorem BrokenWithin.not_heldStable {r : Request} {s : State} (h : BrokenWithin 1 r s) :
    heldStable s.presented (pinsRequest (nextInput s)) = false := by
  rcases h with hp | ⟨hp, pins, hmem, hne⟩
  · rw [hp, heldStable]
  · obtain rfl | hmem := eq_nextInput_or_mem_afterStep hmem
    · simpa [hp, heldStable] using hne.symm
    · simp at hmem

/-- An edge without Accept either shows the change or leaves it to the edges after it. -/
theorem BrokenWithin.tail {k : Nat} {r : Request} {s : State} (h : BrokenWithin (k + 1) r s)
    (hr : (nextInput s).rst = false) (hnone : acceptedNow s = []) :
    BrokenWithin k r (afterStep s) := by
  obtain ⟨hpres, _⟩ := afterStep_of_not_accept hr (not_accept_of_acceptedNow_nil hr hnone)
  rcases h with hp | ⟨hp, pins, hmem, hne⟩
  · exact .inl (by rw [hpres, hp, observe])
  · by_cases heq : r = pinsRequest (nextInput s)
    · refine .inr ⟨by rw [hpres, hp, observe, if_pos heq], pins, ?_, hne⟩
      exact (eq_nextInput_or_mem_afterStep hmem).resolve_left fun hpins =>
        hne (by rw [hpins, ← heq])
    · exact .inl (by rw [hpres, hp, observe, if_neg heq])

/-- After `k` edges without Accept, a duty broken by then is known to be, and no free value has been drawn
meanwhile. -/
theorem BrokenWithin.afterSteps (k : Nat) {r : Request} {s : State} (h : BrokenWithin (k + 1) r s)
    (hr : noResetFor k s) (hnone : acceptedIn k s = []) :
    BrokenWithin 1 r (Machine.afterSteps k s) ∧
      (Machine.afterSteps k s).unstableCount = s.unstableCount := by
  induction k generalizing s with
  | zero => exact ⟨h, rfl⟩
  | succ k ih =>
    obtain ⟨hnow, hlater⟩ := List.append_eq_nil_iff.mp hnone
    obtain ⟨_, hcount⟩ := afterStep_of_not_accept hr.head (not_accept_of_acceptedNow_nil hr.head hnow)
    obtain ⟨hbroken, hcount'⟩ := ih (h.tail hr.head hnow) hr.tail hlater
    exact ⟨hbroken, hcount'.trans hcount⟩

end Sys2Proof.Machine

namespace Sys2Proof.Proofs

open Sys2Proof.Machine

/-- Settles O47: after reset nothing is queued and nothing has been delivered. -/
theorem outcomeOfARun : Obligations.OutcomeOfARun := fun _ _ hr hend =>
  delivered_of_ended_run hr rfl hend

/-- Settles O50, by what the word decodes to. -/
theorem latencyOfACommand : Obligations.LatencyOfACommand := by
  intro w
  rcases decode_cases w with ⟨_, ho, hd⟩ | ⟨hr, ho, hd⟩ | ⟨hbad, _, hd⟩
  · have hno : ¬ rowMatches rowFormat w = true := by
      rw [rowMatches_format_iff, ho]
      exact fun h => absurd h.2 (by decide)
    rw [latency_of_parse hd, if_neg hno]
  · rw [latency_of_format hd, if_pos ((rowMatches_format_iff w).mpr ⟨hr, ho⟩)]
  · have hno : ¬ rowMatches rowFormat w = true := by
      rw [rowMatches_format_iff]
      rintro ⟨hr, ho⟩
      exact hbad.elim (· hr) fun h => h.2 ho
    rw [latency_of_illegal hd, if_neg hno]

/-- Settles O51: the Accept leaves the request alone in the queue with its latency to wait, and `k` edges
later it has its latency less `k` to wait. -/
theorem latencyIsExact : Obligations.LatencyIsExact := by
  intro s k hq hv hr hl hk
  have hready : reqReady s = true := (reqReady_iff s).mpr (by rw [hq]; exact depth_pos)
  have ha : ((nextInput s).reqValid && reqReady s) = true := by rw [hv, hready]; rfl
  have hwait := hl.unitWait_of_accept hr.head ha
  obtain ⟨_, hq'⟩ := afterSteps_of_waiting k (latency (captured s (nextInput s)).cmd - k) hr.tail
    (afterStep_queue_of_accept_first hr.head hq ha) (by rw [hwait, Nat.sub_add_cancel hk])
  rw [afterSteps, rspValid_of_cons hq', Nat.sub_eq_zero_iff_le]
  exact ⟨hk.antisymm, ge_of_eq⟩

/-- Settles O56. -/
theorem inTimeIsKept : Obligations.InTimeIsKept := by
  intro s t hin hl ht
  rw [← afterStep_of_step ht]
  exact hin.afterStep hl

/-- Settles O57: at the Accept the duty is known to be broken, so a free value is captured. -/
theorem changedRequestIsFree : Obligations.ChangedRequestIsFree := by
  intro k s r hp hr hchange hnone hacc
  have hstart : BrokenWithin (k + 1) r s := .inr ⟨hp, hchange⟩
  obtain ⟨hbroken, hcount⟩ := hstart.afterSteps k hr hnone
  rcases acceptedNow_cases (afterSteps k s) with h | ⟨h, _⟩
  · exact absurd h hacc
  · rw [h, captured_of_unstable hbroken.not_heldStable, hcount, unstableRequest]

/-- Settles O40: with the queue empty no response is valid, and `DEPTH` is at least 1. -/
theorem resetEdge : Obligations.ResetEdge := by
  intro s hr
  have hready : reqReady (clockReset (takeInput s)) = true := (reqReady_iff _).mpr depth_pos
  have hvalid : rspValid (clockReset (takeInput s)) = false := rfl
  refine ⟨clockReset (takeInput s), by rw [step_eq_afterStep, afterStep_of_reset hr], rfl, rfl, ?_⟩
  rw [outPins_of_not_valid hvalid, hready]

/-- Settles O55. -/
theorem resetEdgeOfTheOwnFields : Obligations.ResetEdgeOfTheOwnFields := by
  intro s t hr ht
  rw [← afterStep_of_step ht, afterStep_of_reset hr]
  exact ⟨rfl, rfl, rfl⟩

end Sys2Proof.Proofs
end

section
/-! The examples of the source (95_test_vectors.md S1 to S5): the answer to a FORMAT line and to
a PARSE line, from the line its characters spell. -/

namespace Sys2Proof.Machine

/-! ## From the characters of a line to its response (R55, R57) -/

/-- A line of text whose numbers are in range stands for the word and the payload of the line it spells. -/
theorem exists_request_of_spells {line : List Char} {l : AsmLine}
    (spells : (tokensOf line).bind lineOfTokens = some l) (ranges : l.wellFormed = true) :
    ∃ r, assembleText line = some r ∧ r.cmd = commandOf l ∧ r.data = payloadOf l :=
  ⟨{ cmd := commandOf l, data := payloadOf l },
    by rw [assembleText, spells]; exact (assemble_eq_some_iff l _).mpr ⟨ranges, rfl⟩, rfl, rfl⟩

/-- FORMAT's operand of a `val` payload is the number. -/
theorem containerOf_valuePayload (n : Nat) : containerOf (valuePayload n) = BitVec.ofNat 64 n := by
  rw [containerOf, valuePayload, BitVec.extractLsb'_setWidth_of_le (by decide), BitVec.extractLsb'_eq_self]

/-- The answer to a FORMAT line, the defaults filled in. -/
theorem answer_of_format_line {line : List Char} {uc : Option Bool} {delim : Option Nat} {value : Nat}
    (spells : (tokensOf line).bind lineOfTokens = some (.format uc delim value))
    (ranges : (AsmLine.format uc delim value).wellFormed = true) :
    (assembleText line).map respond = some (answerFormat (formatText (BitVec.ofNat 64 value)
      (BitVec.ofNat 8 (delim.getD defaultDelim)) (uc.getD defaultUc))) := by
  obtain ⟨r, hr, hcmd, hdata⟩ := exists_request_of_spells spells ranges
  have hd : decode r.cmd = .legal (formatOf uc delim) := by
    rw [hcmd]
    exact decode_encode rfl
  rw [hr, Option.map_some, respond_of_format hd, formatResponse, hdata, payloadOf, containerOf_valuePayload]

/-- A PARSE line whose text is what FORMAT writes of `v`, in either case and with the line's own `delim`, is
answered `V[47:0]`: the round trip of 45_properties.md R97, whatever `NONHEX_OCTET` is. -/
theorem answer_of_parse_line {line : List Char} {len : Nat} {opts : ParseOptions} {text : TextPayload}
    (spells : (tokensOf line).bind lineOfTokens = some (.parse (some len) opts text))
    (ranges : (AsmLine.parse (some len) opts text).wellFormed = true) (long : 17 ≤ len)
    {v : Container} {uc : Bool}
    (written : ∀ i : Fin 17, txtOf (textPayload text) (i.castLE (by decide)) =
      formatText v (BitVec.ofNat 8 (opts.delim.getD defaultDelim)) uc i) :
    (assembleText line).map respond = some (answerParse (.present (maskedValue v))) := by
  obtain ⟨hlen, _, _⟩ := (wellFormed_parse_iff (some len) opts text).mp ranges
  obtain ⟨r, hr, hcmd, hdata⟩ := exists_request_of_spells spells ranges
  have hd : decode r.cmd = .legal (parseOf len opts) := by
    rw [hcmd]
    exact decode_encode_parseOf hlen opts
  rw [hr, Option.map_some, respond_of_parse hd, parseResponse, hdata, payloadOf,
    parseText_of_formatText _ long written _ _ _ fun _ => rfl]

end Sys2Proof.Machine

namespace Sys2Proof.Proofs

open Sys2Proof.Machine

/-- Settles O36: each PARSE line holds the text FORMAT writes of its value, and each FORMAT line's text is
written out; what a line spells is the assembler run on it. -/
theorem sourceExamples : Obligations.SourceExamples := by
  simp only [Obligations.SourceExamples, List.map_cons, List.map_nil, List.cons.injEq, and_true]
  refine ⟨?parseLower, ?parseUpper, ?parseDash, ?formatMasked, ?formatDash, ?formatLower, ?formatZero⟩
  case parseLower =>
    exact answer_of_parse_line (len := 17) (opts := ⟨none, none, none⟩)
      (v := 0xAABBCCDDEEFF) (uc := false) (text := .txt ("aa:bb:cc:dd:ee:ff".toList.map Char.toNat))
      (by decide +kernel) (by decide +kernel) le_rfl (by decide +kernel)
  case parseUpper =>
    exact answer_of_parse_line (len := 17) (opts := ⟨none, none, none⟩)
      (v := 0xAABBCCDDEEFF) (uc := true) (text := .txt ("AA:BB:CC:DD:EE:FF".toList.map Char.toNat))
      (by decide +kernel) (by decide +kernel) le_rfl (by decide +kernel)
  case parseDash =>
    exact answer_of_parse_line (len := 17) (opts := ⟨none, none, some '-'.toNat⟩)
      (v := 0x0123456789AB) (uc := true) (text := .txt ("01-23-45-67-89-AB".toList.map Char.toNat))
      (by decide +kernel) (by decide +kernel) le_rfl (by decide +kernel)
  case formatMasked =>
    rw [answer_of_format_line (uc := none) (delim := none) (value := 0xFFFFAABBCCDDEEFF)
      (by decide +kernel) (by decide)]
    decide +kernel
  case formatDash =>
    rw [answer_of_format_line (uc := none) (delim := some '-'.toNat) (value := 0x0123456789AB)
      (by decide +kernel) (by decide)]
    decide +kernel
  case formatLower =>
    rw [answer_of_format_line (uc := some false) (delim := none) (value := 0xFEDCBA987654)
      (by decide +kernel) (by decide)]
    decide +kernel
  case formatZero =>
    rw [answer_of_format_line (uc := none) (delim := none) (value := 0) (by decide +kernel) (by decide)]
    decide +kernel

end Sys2Proof.Proofs
end
